-- ==== Sys2Proof/Word.lean ====
section
/-! DEFINITION. The two word types of the hardware: a byte and a 32-bit value (00_scope R6). -/

namespace Sys2Proof

/-- A value: 32 bits, unsigned (R5 `VALUE_BITS`, R6). -/
abbrev Word := BitVec 32

/-- A byte of the wire format: 8 bits (R6). -/
abbrev Byte := BitVec 8

end Sys2Proof
end

