-- ==== Sys2Proof/Machine/Operands.lean ====
section
/-! DEFINITION. The datapath: value to bytes (40_enc_datapath R55 to R59) and bytes to value (42_dec_datapath R68 to R70). -/

namespace Sys2Proof.Machine

/-- `WIDTH(v)`: the least number of bytes, at least 1, that holds `v` (R55). -/
def width (v : Word) : Nat :=
  if v.extractLsb' 24 8 ≠ 0 then 4
  else if v.extractLsb' 16 8 ≠ 0 then 3
  else if v.extractLsb' 8 8 ≠ 0 then 2
  else 1

/-- `PACK(w0, w1, w2, w3)`: the control byte, slot 0's width minus 1 in bits 7-6 (R56, R42). -/
def pack (w0 w1 w2 w3 : Nat) : Byte :=
  (BitVec.ofNat 8 (w0 - 1) <<< 6) ||| (BitVec.ofNat 8 (w1 - 1) <<< 4) ||| (BitVec.ofNat 8 (w2 - 1) <<< 2) |||
    BitVec.ofNat 8 (w3 - 1)

/-- `MARSHAL(v, w)`: the low `w` bytes of `v`, most significant first (R57). -/
def marshal (v : Word) : Nat → List Byte
  | 0 => []
  | w + 1 => v.extractLsb' (8 * w) 8 :: marshal v w

/-- `GROUPBYTES(s0, s1, s2, s3)`: the full wire group (R58, R41). -/
def groupBytes (s0 s1 s2 s3 : Word) : List Byte :=
  pack (width s0) (width s1) (width s2) (width s3) ::
    (marshal s0 (width s0) ++ marshal s1 (width s1) ++ marshal s2 (width s2) ++ marshal s3 (width s3))

/-- `TRUNC(g, n)`: the group without its last `4 - n` bytes (R59). -/
def trunc (g : List Byte) (n : Nat) : List Byte := g.take (g.length - (4 - n))

/-- `FIELD(c, k)`: the 2-bit field of slot `k`, bits `7-2k : 6-2k` of the control byte (R68). -/
def field (c : Byte) (k : Fin 4) : BitVec 2 := c.extractLsb' (6 - 2 * k.val) 2

/-- `DWIDTH(c, k)`: the width the control byte declares for slot `k` (R68). -/
def dwidth (c : Byte) (k : Fin 4) : Nat := (field c k).toNat + 1

/-- `ACCUM(acc, b)`: shift the accumulator up one byte and take `b` in (R69). -/
def accum (acc : Word) (b : Byte) : Word := (acc <<< 8) ||| b.setWidth 32

/-- `LANES`: the same slot value by steering, byte `j` of `w` to lane `w - 1 - j` (R70). -/
def lanes : List Byte → Word
  | [] => 0
  | b :: bs => (b.setWidth 32 <<< (8 * bs.length)) ||| lanes bs

end Sys2Proof.Machine
end

