-- ==== Sys2Proof/Syntax.lean ====
section
/-! DEFINITION. The instructions: one constructor per row of spec/opcode_table.json (30_encoding R42, R49, R52). -/

namespace Sys2Proof

/-- The two command ports, one per unit (R48): GVENC's and GVDEC's. -/
inductive Port where
  | enc
  | dec
  deriving DecidableEq, Repr

/-- The status of a response word (R52). -/
inductive Status where
  | ok
  | eod
  | ioerr
  | refused
  deriving DecidableEq, Repr

/-- One constructor per row of the opcode table. The ignored `imm` of FLUSH, CLOSE, GET and the reserved
words is no operand: words that differ only there are the same operation (R51; log 19). -/
inductive Instr where
  /-- PUT, op 000: append `value` to GVENC's buffer (R62). -/
  | put (value : Word)
  /-- FLUSH, op 001: write the pending values as one group (R63). -/
  | flush
  /-- CLOSE, op 010: exactly FLUSH's rule (R64). -/
  | close
  /-- GET, op 100: deliver the next decoded value (R75). -/
  | get
  /-- Reserved op 011 (R50). -/
  | reserved011
  /-- Reserved op 101 (R50). -/
  | reserved101
  /-- Reserved op 110 (R50). -/
  | reserved110
  /-- Reserved op 111 (R50). -/
  | reserved111
  /-- The wire group's control byte, by the widths it declares for slots 0 to 3 (R42, R68; log 12). -/
  | groupControlByte (w0 w1 w2 w3 : Nat)
  /-- The response word a unit sends the host (R52; log 13). -/
  | response (status : Status) (payload : Word)
  deriving DecidableEq, Repr

end Sys2Proof
end

