-- ==== Sys2Proof/WellFormed.lean ====
section
/-! DEFINITION. Which instructions some word encodes: a declared width is 1 to 4 (30_encoding R42, R43). -/

namespace Sys2Proof

/-- A slot's width on the wire is 1, 2, 3 or 4 bytes (R5 `MIN_WIDTH`, `MAX_WIDTH`; R42). -/
def widthLegal (w : Nat) : Bool := 1 ≤ w && w ≤ 4

/-- The check on an instruction: every operand is one its encoding can carry. -/
def Instr.wellFormed : Instr → Bool
  | .put _ => true
  | .flush => true
  | .close => true
  | .get => true
  | .reserved011 => true
  | .reserved101 => true
  | .reserved110 => true
  | .reserved111 => true
  | .groupControlByte w0 w1 w2 w3 => widthLegal w0 && widthLegal w1 && widthLegal w2 && widthLegal w3
  | .response _ _ => true

end Sys2Proof
end

