-- ==== Sys2Proof/Decode.lean ====
section
/-! DEFINITION. The command word CMD35, the control byte and the response word RSP34: decoding and encoding
(30_encoding R42, R48 to R52; spec/opcode_table.json). -/

namespace Sys2Proof

open Sys2Proof.Machine

/-- `status` of a response word, by its code (R52). -/
def statusOfBits (b : BitVec 2) : Status :=
  match b.toNat with
  | 0 => .ok
  | 1 => .eod
  | 2 => .ioerr
  | _ => .refused

/-- The code of a status (R52). -/
def statusBits : Status → BitVec 2
  | .ok => 0b00#2
  | .eod => 0b01#2
  | .ioerr => 0b10#2
  | .refused => 0b11#2

/-- The instruction a command word stands for, whichever port it is seen on: `op` is bits 34:32, `imm` bits 31:0
(R48, R49, R51). Every word has one. -/
def decodeCommand (w : BitVec 35) : Instr :=
  match (w.extractLsb' 32 3).toNat with
  | 0 => .put (w.extractLsb' 0 32)
  | 1 => .flush
  | 2 => .close
  | 3 => .reserved011
  | 4 => .get
  | 5 => .reserved101
  | 6 => .reserved110
  | _ => .reserved111

/-- The control byte's four declared widths; all 256 bytes are legal (R42, R46, R68). -/
def decodeControlByte (c : Byte) : Instr := .groupControlByte (dwidth c 0) (dwidth c 1) (dwidth c 2) (dwidth c 3)

/-- A response word's status, bits 33:32, and payload, bits 31:0 (R52). -/
def decodeResponse (w : BitVec 34) : Instr := .response (statusOfBits (w.extractLsb' 32 2)) (w.extractLsb' 0 32)

/-- The unit whose operation a command word's `op` names: bit 34 is 0 for GVENC, 1 for GVDEC (R48, R49). -/
def homePort (w : BitVec 35) : Port := if w.extractLsb' 34 1 = 0 then .enc else .dec

/-- Why a number of bits and their value are no word of this hardware. -/
inductive DecodeError where
  /-- No format has this many bits (R42, R48, R52; log 14). -/
  | unknownLength
  /-- A bit above the format's own bits is 1. -/
  | bitsAbove
  deriving DecidableEq, Repr

/-- Decoding by length, total: 8 bits is a control byte, 34 a response word, 35 a command word; 40, the command
word in whole bytes, is read as a command word (log 14). -/
def decode (nbits w : Nat) : Except DecodeError Instr :=
  if nbits = 8 then
    if w < 2 ^ 8 then .ok (decodeControlByte (BitVec.ofNat 8 w)) else .error .bitsAbove
  else if nbits = 34 then
    if w < 2 ^ 34 then .ok (decodeResponse (BitVec.ofNat 34 w)) else .error .bitsAbove
  else if nbits = 35 ∨ nbits = 40 then
    if w < 2 ^ 35 then .ok (decodeCommand (BitVec.ofNat 35 w)) else .error .bitsAbove
  else .error .unknownLength

/-- The instruction the decoder reads from a table row's bits, `none` where it refuses. -/
def decodeTableWord (nbits w : Nat) : Option Instr :=
  match decode nbits w with
  | .ok i => some i
  | .error _ => none

/-- A word: its number of bits and their value. -/
structure TableWord where
  nbits : Nat
  bits  : Nat
  deriving DecidableEq, Repr

/-- The command word of an `op` and an `imm` (R48). -/
def commandWord (op : BitVec 3) (imm : Word) : BitVec 35 := (op.setWidth 35 <<< 32) ||| imm.setWidth 35

/-- The response word of a status and a payload (R52). -/
def responseWord (status : Status) (payload : Word) : BitVec 34 :=
  ((statusBits status).setWidth 34 <<< 32) ||| payload.setWidth 34

/-- A command word as a table word. -/
def commandTableWord (op : BitVec 3) (imm : Word) : TableWord := ⟨35, (commandWord op imm).toNat⟩

/-- The word of a well-formed instruction, ignored bits 0 (R42, R49, R52, R56). -/
def encode : Instr → TableWord
  | .put v => commandTableWord 0b000#3 v
  | .flush => commandTableWord 0b001#3 0
  | .close => commandTableWord 0b010#3 0
  | .get => commandTableWord 0b100#3 0
  | .reserved011 => commandTableWord 0b011#3 0
  | .reserved101 => commandTableWord 0b101#3 0
  | .reserved110 => commandTableWord 0b110#3 0
  | .reserved111 => commandTableWord 0b111#3 0
  | .groupControlByte w0 w1 w2 w3 => ⟨8, (pack w0 w1 w2 w3).toNat⟩
  | .response st p => ⟨34, (responseWord st p).toNat⟩

/-- `width_bits` of the instruction's row in spec/opcode_table.json. -/
def tableWidth : Instr → Nat
  | .put _ => 35
  | .flush => 35
  | .close => 35
  | .get => 35
  | .reserved011 => 35
  | .reserved101 => 35
  | .reserved110 => 35
  | .reserved111 => 35
  | .groupControlByte _ _ _ _ => 8
  | .response _ _ => 34

/-- `mask` of the instruction's row in spec/opcode_table.json. -/
def tableMask : Instr → Nat
  | .put _ => 0x700000000
  | .flush => 0x700000000
  | .close => 0x700000000
  | .get => 0x700000000
  | .reserved011 => 0x700000000
  | .reserved101 => 0x700000000
  | .reserved110 => 0x700000000
  | .reserved111 => 0x700000000
  | .groupControlByte _ _ _ _ => 0x00
  | .response _ _ => 0x000000000

/-- `match` of the instruction's row in spec/opcode_table.json. -/
def tableMatch : Instr → Nat
  | .put _ => 0x000000000
  | .flush => 0x100000000
  | .close => 0x200000000
  | .get => 0x400000000
  | .reserved011 => 0x300000000
  | .reserved101 => 0x500000000
  | .reserved110 => 0x600000000
  | .reserved111 => 0x700000000
  | .groupControlByte _ _ _ _ => 0x00
  | .response _ _ => 0x000000000

end Sys2Proof
end

