-- ==== Sys2Proof/Config.lean ====
section
/-! DEFINITION. The parameters the spec fixes (00_scope R5) and the free values it leaves open (92 D5, D6, D7, D21). -/

namespace Sys2Proof

/-- `GROUP_SLOTS`: slots per group (R5). -/
def Config.groupSlots : Nat := 4

/-- `FIELD_BITS`: bits per control field (R5). -/
def Config.fieldBits : Nat := 2

/-- The longest wire group, 1 + 4 × 4 bytes (R5, R45). -/
def Config.longestGroup : Nat := 17

/-- `sink_fail_prefix`: how many bytes of a failed write reached the sink, cut at the write's length
(R26, D5). Free: one value per draw (log 5). -/
opaque Config.sinkFailPrefix : Nat → Nat

/-- `resp_payload_on_error`: the payload of a response whose status is not OK (R52, D21). Free (log 6). -/
opaque Config.respPayloadOnError : Nat → Word

/-- `enc.slot[k]` after a failed write: unspecified (R65, D6). Free (log 7). -/
opaque Config.encSlotAfterFail : Nat → Fin 4 → Word

/-- `enc.count` after a failed write: unspecified (R65, D6). Free (log 7). -/
opaque Config.encCountAfterFail : Nat → Fin 5

/-- `dec.buf[k]` after a hard read error: unspecified (R78, D7). Free (log 8). -/
opaque Config.decBufAfterErr : Nat → Fin 4 → Word

/-- `dec.avail` after a hard read error: unspecified (R78, D7). Free (log 8). -/
opaque Config.decAvailAfterErr : Nat → Fin 5

/-- `dec.rptr` after a hard read error: unspecified (R78, D7). Free (log 8). -/
opaque Config.decRptrAfterErr : Nat → Fin 5

/-- `dec.finished` after a hard read error: unspecified (R78, D7). Free (log 8). -/
opaque Config.decFinishedAfterErr : Nat → Bool

end Sys2Proof
end

