-- ==== Sys2Proof/Machine/State.lean ====
section
/-! DEFINITION. The state of the two units and of the environment they answer to (10_state, 20_memory R25 to R27),
the reasons a step can stop, and the state after reset. -/

namespace Sys2Proof.Machine

/-- Four 32-bit registers, numbered 0 to 3. -/
structure Quad where
  s0 : Word
  s1 : Word
  s2 : Word
  s3 : Word
  deriving DecidableEq, Repr

/-- GVENC's state (R10): the slot buffer, the number of values pending, the fault flag. `count` is 3 bits wide
with legal values 0 to 4. -/
structure Enc where
  slot  : Quad
  count : Fin 5
  fault : Bool
  deriving DecidableEq, Repr

/-- GVDEC's state (R15): the value buffer, how many of it are valid, the read pointer, the mark that the source
has ended, the fault flag. `avail` and `rptr` are 3 bits wide with legal values 0 to 4. -/
structure Dec where
  buf      : Quad
  avail    : Fin 5
  rptr     : Fin 5
  finished : Bool
  fault    : Bool
  deriving DecidableEq, Repr

/-- The sink's answer to one write (R26). -/
inductive SinkAnswer where
  | ok
  | fail
  deriving DecidableEq, Repr

/-- What the sink answers once its listed answers are used up; `silent` never answers (R108, U11; log 1). -/
inductive SinkAfter where
  | ok
  | fail
  | silent
  deriving DecidableEq, Repr

/-- The source's answer to one read (R27). -/
inductive SrcAnswer where
  | byte (b : Byte)
  | eod
  | err
  deriving DecidableEq, Repr

/-- What the source answers once its listed answers are used up; `silent` never answers (R108, U11; log 1). -/
inductive SrcAfter where
  | eod
  | err
  | silent
  deriving DecidableEq, Repr

/-- The byte sink GVENC is attached to (R25, R26): its contents, oldest byte first, the answers it will give,
and how many writes it has been given (log 16). -/
structure Sink where
  contents : List Byte
  answers  : List SinkAnswer
  after    : SinkAfter
  writes   : Nat
  deriving DecidableEq, Repr

/-- The byte source GVDEC is attached to (R25, R27): the answers it will give, and how many reads it has been
given (log 16). -/
structure Source where
  answers : List SrcAnswer
  after   : SrcAfter
  reads   : Nat
  deriving DecidableEq, Repr

/-- One response word, with the unit that sent it (R52). -/
structure Response where
  port    : Port
  status  : Status
  payload : Word
  deriving DecidableEq, Repr

/-- What can stand before the machine, waiting to be taken (log 10): a command word on a port (R48), a unit's
reset event with the new stream it may bring (R96, R98), and the table's two other words, a control byte
coming in from the source (R42; log 12) and a response word going out (R52; log 13). -/
inductive Event where
  | command (port : Port) (word : BitVec 35)
  | resetEnc (attach : Option Sink)
  | resetDec (attach : Option Source)
  | controlByte (c : Byte)
  | responseWord (port : Port) (word : BitVec 34)
  deriving DecidableEq, Repr

/-- The whole machine: the two units, their streams, what the host has sent, the port of the command under way,
what the host got back, and the counter free values are drawn at (log 9). -/
structure State where
  enc       : Enc
  dec       : Dec
  sink      : Sink
  source    : Source
  pending   : List Event
  port      : Port
  responses : List Response
  draws     : Nat
  deriving DecidableEq, Repr

/-- The reasons a step stops with a fault. -/
inductive Fault where
  /-- Raised by the write of PUT, FLUSH or CLOSE when the sink never answers: the unit waits for ever and sends no
  response (R108, U11 `stuck`). It is that unit's alone: a step runs the other unit, and ends in this fault only where no
  unit has a step. Safe: the model stops where the hardware hangs (log 4; what a reset does then is log 22). -/
  | sinkSilent
  /-- Raised by a read of GET (or of the control byte's group read) when the source never answers (R108, U11
  `stuck`). It is GVDEC's alone, as `sinkSilent` is GVENC's. Safe: the model stops where the hardware hangs (log 4; what a
  reset does then is log 22). -/
  | sourceSilent
  /-- Raised by PUT when `enc.count` is 4 and `enc.fault` is 0: R62's precondition is 0 to 3, there is no slot 4,
  and by R14 no idle unit is in that state. Safe: no run reaches it (log 17). -/
  | putOnFullBuffer
  deriving DecidableEq, Repr

/-- The reasons an instruction is given no meaning. -/
inductive Refusal where
  /-- Raised by an arm of exec that has no meaning yet. Safe: nothing is claimed of it. No arm raises it now. -/
  | notModelled (mnemonic : String)
  /-- Raised by GROUP_CONTROL_BYTE for a declared width outside 1 to 4, which no byte encodes (R42). Safe: no
  word decodes to such a term (log 17). -/
  | illFormed
  deriving DecidableEq, Repr

/-- The four registers at 0: the value this model names for buffers whose reset contents the spec leaves
unspecified (R24, D12; log 3). -/
def Quad.zero : Quad := ⟨0, 0, 0, 0⟩

/-- GVENC after reset (R24, R97). -/
def Enc.reset : Enc := { slot := Quad.zero, count := 0, fault := false }

/-- GVDEC after reset: NeedGroup (R24, R97). -/
def Dec.reset : Dec := { buf := Quad.zero, avail := 0, rptr := 0, finished := false, fault := false }

/-- A sink that holds `contents` and accepts every write. -/
def Sink.accepting (contents : List Byte) : Sink := { contents := contents, answers := [], after := .ok, writes := 0 }

/-- A source that gives the bytes `bs` and then end-of-data: what "decode the stream" means (R39). -/
def Source.ofBytes (bs : List Byte) : Source := { answers := bs.map .byte, after := .eod, reads := 0 }

/-- The machine right after reset: both units at rule R24's values, the empty sink and the empty stream attached
(log 2), nothing sent and nothing answered yet (log 10, log 11, log 16). -/
def State.reset : State :=
  { enc := Enc.reset, dec := Dec.reset, sink := Sink.accepting [], source := Source.ofBytes [],
    pending := [], port := .enc, responses := [], draws := 0 }

/-- What a step, and the meaning of an instruction, answers. -/
abbrev Result := Host.Outcome State Fault Refusal

end Sys2Proof.Machine
end

