-- ==== Sys2Proof/Machine/Flags.lean ====
section
/-! DEFINITION. The end-of-stream detector EOS (42_dec_datapath R71), the three flags it and the streams set
(10_state R13, R18, R19, R22), and GVDEC's named states (R20). -/

namespace Sys2Proof.Machine

/-- Where in the group a read was issued: for the control byte, or for a byte of slot `k` (R71). -/
inductive ReadFor where
  | control
  | slotByte (k : Fin 4)
  deriving DecidableEq, Repr

/-- The three verdicts that end a group read (R71). -/
inductive Stop where
  | cleanEnd
  | shortGroup (k : Fin 4)
  | hardError
  deriving DecidableEq, Repr

/-- The verdict on one answer of the source: data, or a reason to stop (R71). -/
inductive Verdict where
  | data (b : Byte)
  | stop (why : Stop)
  deriving DecidableEq, Repr

/-- `EOS`: the verdict depends on the answer and on where the read was issued, and on nothing else (R71). -/
def eos : ReadFor → SrcAnswer → Verdict
  | _, .byte b => .data b
  | .control, .eod => .stop .cleanEnd
  | .slotByte k, .eod => .stop (.shortGroup k)
  | _, .err => .stop .hardError

/-- `dec.finished <- 1` (R18). -/
def Dec.markFinished (d : Dec) : Dec := { d with finished := true }

/-- Values are buffered and not yet delivered (R20). -/
abbrev Dec.HasBuffered (d : Dec) : Prop := d.fault = false ∧ d.rptr < d.avail

/-- The next GET must read a group (R20). -/
abbrev Dec.NeedGroup (d : Dec) : Prop := d.fault = false ∧ d.rptr = d.avail ∧ d.finished = false

/-- The source has ended and every value is delivered (R20). -/
abbrev Dec.Exhausted (d : Dec) : Prop := d.fault = false ∧ d.rptr = d.avail ∧ d.finished = true

/-- A read answered `Err`; only reset leaves this state (R19, R20). -/
abbrev Dec.Faulted (d : Dec) : Prop := d.fault = true

/-- The fault flag of the unit behind a port (R13, R19). -/
def State.faultOf (s : State) : Port → Bool
  | .enc => s.enc.fault
  | .dec => s.dec.fault

end Sys2Proof.Machine
end

