-- ==== Sys2Proof/Machine/Ops.lean ====
section
/-! DEFINITION. The named operations: register access, the two stream accesses (20_memory R26, R27), the response
(30_encoding R52), raising a condition (60_exceptions R81, R89), reset (70 R96), the common entry of a command
(R61, R74, R88), and the two internal procedures DOFLUSH (R63) and READGROUP (R76). -/

namespace Sys2Proof.Machine

/-! ## Registers and fields -/

/-- Register read: `slot[k]`, `buf[k]` (R7). -/
def Quad.get (q : Quad) (k : Fin 4) : Word :=
  match k with
  | 0 => q.s0
  | 1 => q.s1
  | 2 => q.s2
  | 3 => q.s3

/-- Register write: `slot[k] <- v`, `buf[k] <- v` (R7). -/
def Quad.set (q : Quad) (k : Fin 4) (v : Word) : Quad :=
  match k with
  | 0 => { q with s0 := v }
  | 1 => { q with s1 := v }
  | 2 => { q with s2 := v }
  | 3 => { q with s3 := v }

/-- The first `n` registers kept, the others 0: a flush's padding (R63 step 2). -/
def Quad.padded (q : Quad) (n : Nat) : Quad :=
  { s0 := if 0 < n then q.s0 else 0
    s1 := if 1 < n then q.s1 else 0
    s2 := if 2 < n then q.s2 else 0
    s3 := if 3 < n then q.s3 else 0 }

/-- Replace GVENC's registers. -/
def State.withEnc (s : State) (e : Enc) : State := { s with enc := e }

/-- Replace GVDEC's registers. -/
def State.withDec (s : State) (d : Dec) : State := { s with dec := d }

/-- Replace the sink. -/
def State.withSink (s : State) (k : Sink) : State := { s with sink := k }

/-- Replace the source. -/
def State.withSource (s : State) (r : Source) : State := { s with source := r }

/-- Replace what waits to be taken. -/
def State.withPending (s : State) (es : List Event) : State := { s with pending := es }

/-- Set the port of the command under way. -/
def State.withPort (s : State) (p : Port) : State := { s with port := p }

/-- A free value has been drawn: the next one is another (log 9). -/
def State.drawn (s : State) : State := { s with draws := s.draws + 1 }

/-! ## The response -/

/-- The response word goes to the host (R7 `respond`, R52). -/
def State.sends (s : State) (r : Response) : State := { s with responses := s.responses ++ [r] }

/-- `respond(OK, payload)` by the unit behind `p` (R52). -/
def State.respondOk (s : State) (p : Port) (payload : Word) : State := s.sends ⟨p, .ok, payload⟩

/-- `respond(status, _)` for a status other than OK: the payload is a free value (R52, D21; log 6). -/
def State.respondBare (s : State) (p : Port) (status : Status) : State :=
  (s.sends ⟨p, status, Config.respPayloadOnError s.draws⟩).drawn

/-! ## Conditions: the hardware's exceptions, and reset, the only way back from two of them -/

/-- The four conditions an operation can end with (R81). -/
inductive Condition where
  | endOfData
  | readError
  | writeError
  | refused
  deriving DecidableEq, Repr

/-- GVENC after a failed write: `enc.fault` is 1, the slots and the count are unspecified (R65; log 7). -/
def State.spoilEnc (s : State) : State :=
  (s.withEnc
    { slot :=
        { s0 := Config.encSlotAfterFail s.draws 0
          s1 := Config.encSlotAfterFail s.draws 1
          s2 := Config.encSlotAfterFail s.draws 2
          s3 := Config.encSlotAfterFail s.draws 3 }
      count := Config.encCountAfterFail s.draws
      fault := true }).drawn

/-- GVDEC after a hard read error: `dec.fault` is 1, the other fields are unspecified (R78; log 8). -/
def State.spoilDec (s : State) : State :=
  (s.withDec
    { buf :=
        { s0 := Config.decBufAfterErr s.draws 0
          s1 := Config.decBufAfterErr s.draws 1
          s2 := Config.decBufAfterErr s.draws 2
          s3 := Config.decBufAfterErr s.draws 3 }
      avail := Config.decAvailAfterErr s.draws
      rptr := Config.decRptrAfterErr s.draws
      finished := Config.decFinishedAfterErr s.draws
      fault := true }).drawn

/-- Raising a condition: the operation ends, the flag of the condition's row in R81 is set, its status goes out in
the response (R89). Nothing is saved and control goes nowhere. Refused is answered by the unit the command
stands before and changes nothing (R85). -/
def State.raise (s : State) : Condition → State
  | .endOfData => (s.withDec s.dec.markFinished).respondBare .dec .eod
  | .readError => s.spoilDec.respondBare .dec .ioerr
  | .writeError => s.spoilEnc.respondBare .enc .ioerr
  | .refused => s.respondBare s.port .refused

/-- GVENC's reset event: its own fields at rule R24's values; the sink is touched only if the host attaches a new
one with the reset (R96, R98, D18; log 15). -/
def State.resetEncoder (s : State) (attach : Option Sink) : State :=
  (s.withEnc Enc.reset).withSink (attach.getD s.sink)

/-- GVDEC's reset event, likewise (R96, R98, D18; log 15). -/
def State.resetDecoder (s : State) (attach : Option Source) : State :=
  (s.withDec Dec.reset).withSource (attach.getD s.source)

/-! ## The common entry of a command -/

/-- The checks before any command, in this order: the unit is faulted, the operation is not the unit's (`home` is
the operation's own port, `none` for a reserved opcode); then the operation's own rule (R61, R74, R88, D22). -/
def enter (home : Option Port) (body : State → Result) (s : State) : Result :=
  if s.faultOf s.port then .next (s.raise .refused)
  else if home ≠ some s.port then .next (s.raise .refused)
  else body s

/-! ## The sink and DOFLUSH -/

/-- The sink's next answer and the sink that has given it; `none` if it never answers (R26, R108). -/
def Sink.answer (k : Sink) : Option (SinkAnswer × Sink) :=
  match k.answers with
  | a :: as => some (a, { k with answers := as, writes := k.writes + 1 })
  | [] =>
    match k.after with
    | .ok => some (.ok, { k with writes := k.writes + 1 })
    | .fail => some (.fail, { k with writes := k.writes + 1 })
    | .silent => none

/-- Bytes appended to the sink's contents. -/
def Sink.append (k : Sink) (bs : List Byte) : Sink := { k with contents := k.contents ++ bs }

/-- What one `SinkWrite` comes to. -/
inductive WriteResult where
  | silent
  | ok (s : State)
  | failed (s : State)
  deriving DecidableEq, Repr

/-- `SinkWrite(bs)`: on `Ok` all of `bs` is appended, on `Fail` a part of it from its start whose length is a free
value (R26, D5; log 5). -/
def State.sinkWrite (s : State) (bs : List Byte) : WriteResult :=
  match s.sink.answer with
  | none => .silent
  | some (.ok, k) => .ok (s.withSink (k.append bs))
  | some (.fail, k) => .failed (s.withSink (k.append (bs.take (Config.sinkFailPrefix s.draws)))).drawn

/-- The bytes a flush of GVENC writes: the group of its pending values, padded and cut (R63 steps 2 to 4). -/
def Enc.flushBytes (e : Enc) : List Byte :=
  let q := e.slot.padded e.count.val
  trunc (groupBytes q.s0 q.s1 q.s2 q.s3) e.count.val

/-- GVENC with its unused slots padded (R63 step 2; log 21). -/
def Enc.pad (e : Enc) : Enc := { e with slot := e.slot.padded e.count.val }

/-- GVENC with nothing pending (R63 step 7). -/
def Enc.emptied (e : Enc) : Enc := { e with count := 0 }

/-- What DOFLUSH comes to: no answer, the number of bytes written, or a failed write. -/
inductive FlushResult where
  | silent
  | written (n : Nat) (s : State)
  | failed (s : State)
  deriving DecidableEq, Repr

/-- `DOFLUSH` (R63). -/
def State.doFlush (s : State) : FlushResult :=
  if s.enc.count = 0 then .written 0 s
  else
    let bs := s.enc.flushBytes
    match (s.withEnc s.enc.pad).sinkWrite bs with
    | .silent => .silent
    | .failed t => .failed t
    | .ok t => .written bs.length (t.withEnc t.enc.emptied)

/-- DOFLUSH and its response: OK with the byte count, or WriteError (R63, R65). Before a sink that never answers GVENC has
no step (R108; log 4), a reset meanwhile is not taken (log 22), and the write leaves nothing in State (log 23). -/
def flushAndRespond (s : State) : Result :=
  match s.doFlush with
  | .silent => .fault .sinkSilent
  | .written n t => .next (t.respondOk .enc (BitVec.ofNat 32 n))
  | .failed t => .next (t.raise .writeError)

/-! ## The source and READGROUP -/

/-- `SrcRead()`: the source's next answer and the source that has given it; `none` if it never answers (R27,
R108). -/
def Source.read (r : Source) : Option (SrcAnswer × Source) :=
  match r.answers with
  | a :: as => some (a, { r with answers := as, reads := r.reads + 1 })
  | [] =>
    match r.after with
    | .eod => some (.eod, { r with reads := r.reads + 1 })
    | .err => some (.err, { r with reads := r.reads + 1 })
    | .silent => none

/-- The source when `c` is the next byte it gives. -/
def Source.offer (r : Source) (c : Byte) : Source := { r with answers := .byte c :: r.answers }

/-- What reading one slot comes to: no answer, the whole value, or a verdict to stop. -/
inductive SlotRead where
  | silent
  | whole (v : Word) (r : Source)
  | stopped (why : Stop) (r : Source)
  deriving DecidableEq, Repr

/-- Read the `w` bytes left of slot `k`, accumulating them big-endian (R69, R76). -/
def readSlot (k : Fin 4) : Nat → Word → Source → SlotRead
  | 0, acc, r => .whole acc r
  | w + 1, acc, r =>
    match r.read with
    | none => .silent
    | some (a, r') =>
      match eos (.slotByte k) a with
      | .data b => readSlot k w (accum acc b) r'
      | .stop why => .stopped why r'

/-- What reading the slots comes to: no answer, all of them, or a verdict to stop with the slots before it. -/
inductive SlotsRead where
  | silent
  | full (buf : Quad) (r : Source)
  | stopped (why : Stop) (buf : Quad) (r : Source)
  deriving DecidableEq, Repr

/-- Read the slots `ks` in order, each by the width the control byte declares; only a complete slot is written
(R76). -/
def readSlots (c : Byte) : List (Fin 4) → Quad → Source → SlotsRead
  | [], buf, r => .full buf r
  | k :: ks, buf, r =>
    match readSlot k (dwidth c k) 0 r with
    | .silent => .silent
    | .stopped why r' => .stopped why buf r'
    | .whole v r' => readSlots c ks (buf.set k v) r'

/-- The slots in the order they stand on the wire (R28). -/
def slotOrder : List (Fin 4) := [0, 1, 2, 3]

/-- What READGROUP comes to (R76). -/
inductive GroupRead where
  | silent
  | hardError (r : Source)
  | cleanEnd (d : Dec) (r : Source)
  | group (d : Dec) (r : Source)
  deriving DecidableEq, Repr

/-- The end of READGROUP: how many values are available, the read pointer at their start, and the mark that the
source has ended (R71, R76). -/
def Dec.conclude (d : Dec) : SlotsRead → GroupRead
  | .silent => .silent
  | .full buf r => .group { d with buf := buf, avail := 4, rptr := 0 } r
  | .stopped .cleanEnd _ r => .cleanEnd d.markFinished r
  | .stopped (.shortGroup k) buf r =>
    .group { d with buf := buf, avail := k.castSucc, rptr := 0, finished := true } r
  | .stopped .hardError _ r => .hardError r

/-- `READGROUP`: one control byte, then the slots it declares (R76). -/
def Dec.readGroup (d : Dec) (r : Source) : GroupRead :=
  match r.read with
  | none => .silent
  | some (a, r') =>
    match eos .control a with
    | .data c => d.conclude (readSlots c slotOrder d.buf r')
    | .stop why => d.conclude (.stopped why d.buf r')

/-- Deliver the value at the read pointer and move past it; without one, EndOfData (R75, D8). -/
def State.deliver (s : State) : State :=
  if h : s.dec.rptr < s.dec.avail then
    let i : Fin 4 := ⟨s.dec.rptr.val, by omega⟩
    (s.withDec { s.dec with rptr := i.succ }).respondOk .dec (s.dec.buf.get i)
  else s.raise .endOfData

end Sys2Proof.Machine
end

