-- ==== Sys2Proof/Machine/Decoder.lean ====
section
/-! DEFINITION. GVDEC's operation GET (43_dec_operations R74, R75). -/

namespace Sys2Proof.Machine

/-- What a GET answers after its group read (R75, R78, R82, D8). Before a source that never answers GVDEC has no step
(R108; log 4), a reset meanwhile is not taken (log 22), and the reads made leave nothing in State (log 23). -/
def State.answerGroup (s : State) : GroupRead → Result
  | .silent => .fault .sourceSilent
  | .hardError r => .next ((s.withSource r).raise .readError)
  | .cleanEnd d r => .next (((s.withSource r).withDec d).raise .endOfData)
  | .group d r => .next ((s.withSource r).withDec d).deliver

/-- GET's own rule: a buffered value first, then the mark that the source has ended, then a group read (R75). -/
def getBody (s : State) : Result :=
  if s.dec.rptr < s.dec.avail then .next s.deliver
  else if s.dec.finished then .next (s.raise .endOfData)
  else s.answerGroup (s.dec.readGroup s.source)

/-- `GET` (R74, R75). -/
def execGet (s : State) : Result := enter (some .dec) getBody s

end Sys2Proof.Machine
end

