-- ==== Sys2Proof/Machine/Encoder.lean ====
section
/-! DEFINITION. GVENC's operations: PUT, FLUSH, CLOSE (41_enc_operations R61 to R65). -/

namespace Sys2Proof.Machine

/-- GVENC with `v` appended: stored at `slot[count]`, the count one more (R12, R62). -/
def Enc.appended (e : Enc) (v : Word) (h : e.count.val < 4) : Enc :=
  let i : Fin 4 := ⟨e.count.val, h⟩
  { e with slot := e.slot.set i v, count := i.succ }

/-- PUT's own rule: append; the fourth value triggers a flush (R62). -/
def putBody (v : Word) (s : State) : Result :=
  if h : s.enc.count.val < 4 then
    let t := s.withEnc (s.enc.appended v h)
    if t.enc.count = 4 then flushAndRespond t else .next (t.respondOk .enc 0)
  else .fault .putOnFullBuffer

/-- `PUT value` (R61, R62). -/
def execPut (value : Word) (s : State) : Result := enter (some .enc) (putBody value) s

/-- `FLUSH` (R61, R63). -/
def execFlush (s : State) : Result := enter (some .enc) flushAndRespond s

/-- `CLOSE`: exactly FLUSH's rule, no closed state (R61, R64, D10). -/
def execClose (s : State) : Result := enter (some .enc) flushAndRespond s

end Sys2Proof.Machine
end

