-- ==== Sys2Proof/Machine/Reserved.lean ====
section
/-! DEFINITION. The reserved opcodes: REFUSED on either port, nothing changed, nothing touched (30_encoding R50). -/

namespace Sys2Proof.Machine

/-- No unit has an operation for a reserved opcode, so the entry's checks refuse it before this is reached (R50). -/
def noOperation (s : State) : Result := .next (s.raise .refused)

/-- Reserved op 011 (R50, R61, R74). -/
def execReserved011 (s : State) : Result := enter none noOperation s

/-- Reserved op 101 (R50, R61, R74). -/
def execReserved101 (s : State) : Result := enter none noOperation s

/-- Reserved op 110 (R50, R61, R74). -/
def execReserved110 (s : State) : Result := enter none noOperation s

/-- Reserved op 111 (R50, R61, R74). -/
def execReserved111 (s : State) : Result := enter none noOperation s

end Sys2Proof.Machine
end

