-- ==== Sys2Proof/Machine/Wire.lean ====
section
/-! DEFINITION. The opcode table's two words that are no commands: the control byte GVDEC reads from its source
(30_encoding R42, 43 R76) and the response word a unit sends (30_encoding R52). -/

namespace Sys2Proof.Machine

/-- GROUP_CONTROL_BYTE: the byte is the next one the source gives, and a GET meets it. In NeedGroup it is latched
and its group read follows; in any other state GVDEC does not read, and the byte stays in the source (R42, R71,
R75, R76; log 12). -/
def execGroupControlByte (w0 w1 w2 w3 : Nat) (s : State) : Result :=
  if widthLegal w0 && widthLegal w1 && widthLegal w2 && widthLegal w3 then
    enter (some .dec) getBody ((s.withPort .dec).withSource (s.source.offer (pack w0 w1 w2 w3)))
  else .refused .illFormed

/-- RESPONSE: the word is sent to the host by the unit at the current port (R7 `respond`, R52; log 13). -/
def execResponse (status : Status) (payload : Word) (s : State) : Result := .next (s.sends ⟨s.port, status, payload⟩)

end Sys2Proof.Machine
end

