-- ==== Sys2Proof/Machine/Dispatch.lean ====
section
/-! DEFINITION. One arm per instruction. -/

namespace Sys2Proof.Machine

def exec (i : Instr) (s : State) : Host.Outcome State Fault Refusal :=
  match i with
  | .put value => Sys2Proof.Machine.execPut value s
  | .flush => Sys2Proof.Machine.execFlush s
  | .close => Sys2Proof.Machine.execClose s
  | .get => Sys2Proof.Machine.execGet s
  | .reserved011 => Sys2Proof.Machine.execReserved011 s
  | .reserved101 => Sys2Proof.Machine.execReserved101 s
  | .reserved110 => Sys2Proof.Machine.execReserved110 s
  | .reserved111 => Sys2Proof.Machine.execReserved111 s
  | .groupControlByte w0 w1 w2 w3 => Sys2Proof.Machine.execGroupControlByte w0 w1 w2 w3 s
  | .response status payload => Sys2Proof.Machine.execResponse status payload s

end Sys2Proof.Machine
end

