-- ==== Sys2Proof/Machine/Fetch.lean ====
section
/-! DEFINITION. What a step takes next (30_encoding R48, 70 R96, R108), how a table word is laid before the machine, and the
word a response goes out as (30_encoding R52). -/

namespace Sys2Proof.Machine

/-- The unit an event is for: the one behind its port, the one it resets, the one that reads a control byte. -/
def Event.unit : Event → Port
  | .command p _ => p
  | .resetEnc _ => .enc
  | .resetDec _ => .dec
  | .controlByte _ => .dec
  | .responseWord p _ => p

/-- The faults that say a unit waits on its own stream; only that unit has no step then (R108, U11; log 4). -/
def Fault.waits : Fault → Bool
  | .sinkSilent => true
  | .sourceSilent => true
  | .putOnFullBuffer => false

/-- The fault by which an event's unit waits, if it does. -/
def waitOf : Result → Option Fault
  | .fault f => if f.waits then some f else none
  | .next _ => none
  | .refused _ => none

/-- Carry out one event: a command on its port, a reset, or one of the table's two other words (R34, R48, R96; log 10). -/
def carryOut (s : State) : Event → Result
  | .command p w => exec (decodeCommand w) (s.withPort p)
  | .resetEnc attach => .next (s.resetEncoder attach)
  | .resetDec attach => .next (s.resetDecoder attach)
  | .controlByte c => exec (decodeControlByte c) (s.withPort .dec)
  | .responseWord p w => exec (decodeResponse w) (s.withPort p)

/-- Take the oldest of the events that a unit has a step for. `held` are the events passed over so far, oldest first: a
command whose unit waits on a silent stream, and what that unit was sent after it, a reset too (log 22); they stay sent, in
order. A unit's wait holds up its own events only (R8, R95, R108). With nothing sent nothing changes (R87, R94); where
every unit that was sent something waits, nothing has a step, and the fault of the oldest command says why (log 4). -/
def advance (s : State) (held : List Event) (why : Option Fault) : List Event → Result
  | [] =>
    match why with
    | none => .next s
    | some f => .fault f
  | e :: es =>
    if held.any (·.unit = e.unit) then advance s (held ++ [e]) why es
    else
      match waitOf (carryOut (s.withPending (held ++ es)) e) with
      | none => carryOut (s.withPending (held ++ es)) e
      | some f => advance s (held ++ [e]) (why.or (some f)) es

/-- The event that brings a table word to the machine: a command word on the port of the unit its opcode belongs
to, by the lengths `decode` knows (log 10, log 14). -/
def eventOfTableWord (nbits w : Nat) : Option Event :=
  match decode nbits w with
  | .error _ => none
  | .ok _ =>
    if nbits = 8 then some (.controlByte (BitVec.ofNat 8 w))
    else if nbits = 34 then some (.responseWord .enc (BitVec.ofNat 34 w))
    else some (.command (homePort (BitVec.ofNat 35 w)) (BitVec.ofNat 35 w))

/-- Put a table word before whatever else the host has sent. -/
def placeTableWord (s : State) (nbits w : Nat) : State :=
  match eventOfTableWord nbits w with
  | some e => s.withPending (e :: s.pending)
  | none => s

/-- The 34-bit word a response goes to the host as (R52). -/
def Response.word (r : Response) : BitVec 34 := responseWord r.status r.payload

end Sys2Proof.Machine
end

