-- ==== Sys2Proof/Machine/Step.lean ====
section
/-! DEFINITION. One step: take what the host sent next and carry it out (00_scope R8: one step per command). -/

namespace Sys2Proof.Machine

/-- One step: the oldest event that its unit has a step for. -/
def step (s : State) : Host.Outcome State Fault Refusal := advance s [] none s.pending

/-- `s` with the table word where `step` takes its next instruction: before everything else sent (log 10). -/
def State.withFetchWord (s : State) (nbits w : Nat) : State := placeTableWord s nbits w

end Sys2Proof.Machine
end

