-- ==== Sys2Proof/Machine/Stream.lean ====
section
/-! DEFINITION. The laws over whole streams: ENCODE (41 R66), DECODE (43 R79), and a host that issues operations one
after another. -/

namespace Sys2Proof.Machine

/-- `ENCODE(v1..vn)`: full groups of four, then the cut group of the 1 to 3 values left (R66). -/
def encodeStream : List Word → List Byte
  | [] => []
  | [a] => trunc (groupBytes a 0 0 0) 1
  | [a, b] => trunc (groupBytes a b 0 0) 2
  | [a, b, c] => trunc (groupBytes a b c 0) 3
  | a :: b :: c :: d :: vs => groupBytes a b c d ++ encodeStream vs

/-- The number whose big-endian bytes are `bs`: `b0 × 256^(w-1) + ... + b(w-1)` (R43, R79). -/
def bigEndian : List Byte → Nat
  | [] => 0
  | b :: bs => b.toNat * 256 ^ bs.length + bigEndian bs

/-- The values of the complete slots at the front of `body`, their widths being `ws`; and what stands after the last
slot if all of them are complete (R79). -/
def takeSlots : List Nat → List Byte → List Word × Option (List Byte)
  | [], body => ([], some body)
  | w :: ws, body =>
    if w ≤ body.length then
      let r := takeSlots ws (body.drop w)
      (BitVec.ofNat 32 (bigEndian (body.take w)) :: r.1, r.2)
    else ([], none)

/-- The four widths a control byte declares (R68). -/
def widths (c : Byte) : List Nat := [dwidth c 0, dwidth c 1, dwidth c 2, dwidth c 3]

/-- `DECODE`, at most `n` groups of it. -/
def decodeGroups : Nat → List Byte → List Word
  | 0, _ => []
  | _ + 1, [] => []
  | n + 1, c :: body =>
    match takeSlots (widths c) body with
    | (vs, some rest) => vs ++ decodeGroups n rest
    | (vs, none) => vs

/-- `DECODE(S)`: a stream has no more groups than bytes (R79). -/
def decodeStream (bs : List Byte) : List Word := decodeGroups bs.length bs

/-- The host issues these operations in order, each after the response to the one before it (R34, R100). -/
def execAll : List Instr → State → Result
  | [], s => .next s
  | i :: is, s =>
    match exec i s with
    | .next t => execAll is t
    | .fault r => .fault r
    | .refused r => .refused r

end Sys2Proof.Machine
end

