-- ==== Sys2Proof/Safety.lean ====
section
/-! DEFINITION. What claims call a good state and a good end of a run (10_state R14, R20; 70 R108). -/

namespace Sys2Proof.Machine

/-- GVENC between commands: faulted, or 0 to 3 values pending (R14). -/
abbrev Enc.Inv (e : Enc) : Prop := e.fault = true ∨ e.count.val ≤ 3

/-- GVDEC between commands: faulted, or the pointer within the available values, and fewer than 4 of them only at
the start or at the end of the stream (R20). -/
abbrev Dec.Inv (d : Dec) : Prop :=
  d.fault = true ∨ (d.rptr ≤ d.avail ∧ (d.avail < 4 → d.avail = 0 ∨ d.finished = true))

/-- Both units are in a state that R14 and R20 allow. -/
abbrev State.Inv (s : State) : Prop := s.enc.Inv ∧ s.dec.Inv

/-- The encoder waits for a command with nothing wrong: its port is the one addressed and it is not faulted. -/
abbrev State.EncReady (s : State) : Prop := s.port = .enc ∧ s.enc.fault = false

/-- The decoder waits for a command with nothing wrong. -/
abbrev State.DecReady (s : State) : Prop := s.port = .dec ∧ s.dec.fault = false

/-- The state in which a refused command leaves the machine: one response REFUSED with an open payload, and nothing
else changed (R50, R61, R74, R85). -/
abbrev State.afterRefusal (s : State) : State :=
  { s with
    responses := s.responses ++ [⟨s.port, .refused, Config.respPayloadOnError s.draws⟩]
    draws := s.draws + 1 }

/-- The source will not report an I/O failure and will not fall silent. -/
abbrev Source.Honest (r : Source) : Prop := SrcAnswer.err ∉ r.answers ∧ r.after = .eod

/-- Asked once for each of `as`, the source gives exactly these answers and is then `r'` (R27, R39). -/
def Source.Gives : Source → List SrcAnswer → Source → Prop
  | r, [], r' => r' = r
  | r, a :: as, r' => ∃ m, r.read = some (a, m) ∧ m.Gives as r'

/-- Two contents of GVENC that no command tells apart: the same fault flag, and while it is 0 the same count and the same
pending values (R11, R13). -/
abbrev Enc.Same (e e' : Enc) : Prop :=
  e.fault = e'.fault ∧ (e.fault = false → e.count = e'.count ∧ ∀ k : Fin 4, k.val < e.count.val → e.slot.get k = e'.slot.get k)

/-- Two contents of GVDEC that no command tells apart: the same fault flag, and while it is 0 the same count, pointer and
mark and the same available values (R16, R19). -/
abbrev Dec.Same (d d' : Dec) : Prop :=
  d.fault = d'.fault ∧ (d.fault = false → d.avail = d'.avail ∧ d.rptr = d'.rptr ∧ d.finished = d'.finished ∧
    ∀ k : Fin 4, k.val < d.avail.val → d.buf.get k = d'.buf.get k)

/-- Two states that differ only in what no command can tell. -/
abbrev State.Same (s s' : State) : Prop :=
  s.enc.Same s'.enc ∧ s.dec.Same s'.dec ∧ s.sink = s'.sink ∧ s.source = s'.source ∧ s.pending = s'.pending ∧
    s.port = s'.port ∧ s.responses = s'.responses ∧ s.draws = s'.draws

/-- A sink that accepts every write it is given. -/
abbrev Sink.Accepts (k : Sink) : Prop := (∀ a ∈ k.answers, a = SinkAnswer.ok) ∧ k.after = .ok

/-- The instruction is what a command word stands for (R49), not one of the table's two other words. -/
def isCommand : Instr → Bool
  | .put _ => true
  | .flush => true
  | .close => true
  | .get => true
  | .reserved011 => true
  | .reserved101 => true
  | .reserved110 => true
  | .reserved111 => true
  | .groupControlByte _ _ _ _ => false
  | .response _ _ => false

/-- GVENC right after reset, its port addressed (R97): the spec's values, any slots. -/
abbrev State.EncFresh (s : State) : Prop := s.EncReady ∧ s.enc.count = 0

/-- GVDEC right after reset, its port addressed (R97): the spec's values, any buffer. -/
abbrev State.DecFresh (s : State) : Prop :=
  s.DecReady ∧ s.dec.avail = 0 ∧ s.dec.rptr = 0 ∧ s.dec.finished = false

/-- The value an instruction puts, if it is a PUT. -/
def valuePut : Instr → Option Word
  | .put v => some v
  | .flush => none
  | .close => none
  | .get => none
  | .reserved011 => none
  | .reserved101 => none
  | .reserved110 => none
  | .reserved111 => none
  | .groupControlByte _ _ _ _ => none
  | .response _ _ => none

/-- The values the commands `is` put, in order. -/
def valuesPut (is : List Instr) : List Word := is.filterMap valuePut

/-- The host respects the hazard of R99 in the commands `is` from `s`: a FLUSH or CLOSE that finds values pending is
followed by no PUT. -/
def PartialFlushIsLast (s : State) (is : List Instr) : Prop :=
  ∀ (js ks : List Instr) (i : Instr) (m : State), is = js ++ i :: ks → i = .flush ∨ i = .close →
    execAll js s = .next m → m.enc.count ≠ 0 → ∀ v, .put v ∉ ks

/-- The encoder run of the commands `is` and a last CLOSE, from reset, ends well in `t`: that CLOSE is answered OK
(R108). -/
def EncoderEndsWell (s : State) (is : List Instr) (t : State) : Prop :=
  s.EncFresh ∧ (∀ i ∈ is, isCommand i = true) ∧ ∃ (m : State) (n : Word), execAll is s = .next m ∧
    exec .close m = .next t ∧ t.responses = m.responses ++ [⟨.enc, .ok, n⟩]

/-- The decoder run of GETs from reset, answered `rs` and then EOD for the first time, ends well in `t` (R108). -/
def DecoderEndsWell (s : State) (rs : List Response) (t : State) : Prop :=
  s.DecFresh ∧ (∀ r ∈ rs, r.status ≠ .eod) ∧ ∃ (m : State) (p : Word), execAll (List.replicate rs.length .get) s = .next m ∧
    m.responses = s.responses ++ rs ∧ exec .get m = .next t ∧ t.responses = m.responses ++ [⟨.dec, .eod, p⟩]

end Sys2Proof.Machine
end

