-- ==== Sys2Proof/Certificates/Slice0/Obligations.lean ====
section
/-! DEFINITION. The statements for the provers. Each docstring names the rule of spec/ it formalises; where a clause
rests on a choice of the model, it names the log entry. -/

open Sys2Proof Sys2Proof.Machine

/-! ## Encoding -/

/-- Every well-formed instruction is read back from its own word, whatever its operands (R42, R48, R49, R52). -/
def Obligations.DecodeInvertsEncode : Prop :=
  ∀ i : Instr, i.wellFormed = true → decode (encode i).nbits (encode i).bits = .ok i

/-- R49, R51: the opcode map, for all 2^35 words. PUT's operand is `imm` unchanged; in every other row two words that
differ only in `imm` are the same operation (for the reserved rows this is read from R49's mask, log 19). -/
def Obligations.CommandWordsFollowTheOpcodeMap : Prop :=
  ∀ w : BitVec 35,
    let op := w.extractLsb' 32 3
    let imm := w.extractLsb' 0 32
    (op = 0b000#3 → decodeCommand w = .put imm) ∧ (op = 0b001#3 → decodeCommand w = .flush) ∧
    (op = 0b010#3 → decodeCommand w = .close) ∧ (op = 0b011#3 → decodeCommand w = .reserved011) ∧
    (op = 0b100#3 → decodeCommand w = .get) ∧ (op = 0b101#3 → decodeCommand w = .reserved101) ∧
    (op = 0b110#3 → decodeCommand w = .reserved110) ∧ (op = 0b111#3 → decodeCommand w = .reserved111)

/-- R42, R46: all 256 control bytes are legal, each declares four widths from 1 to 4, and encoding them gives the byte
back. -/
def Obligations.EveryControlByteIsLegal : Prop :=
  ∀ c : Byte, (decodeControlByte c).wellFormed = true ∧ encode (decodeControlByte c) = ⟨8, c.toNat⟩

/-- R52: the response word's status codes and payload, for all 2^34 words, and the word a response goes out as. -/
def Obligations.ResponseWordLayout : Prop :=
  (∀ w : BitVec 34,
    let code := w.extractLsb' 32 2
    let p := w.extractLsb' 0 32
    (code = 0b00#2 → decodeResponse w = .response .ok p) ∧ (code = 0b01#2 → decodeResponse w = .response .eod p) ∧
    (code = 0b10#2 → decodeResponse w = .response .ioerr p) ∧
    (code = 0b11#2 → decodeResponse w = .response .refused p)) ∧
  ∀ r : Response, decodeResponse r.word = .response r.status r.payload

/-- A few words written out from the spec's own listings (95_test_vectors V2, V4.10, P1, P5) read as the instructions
they stand for. -/
def Obligations.SpecWordsDecode : Prop :=
  decodeTableWord 35 0x00000012C = some (.put 300) ∧ decodeTableWord 35 0x1DEADBEEF = some .flush ∧
  decodeTableWord 35 0x200000000 = some .close ∧ decodeTableWord 35 0x400000000 = some .get ∧
  decodeTableWord 35 0x300000000 = some .reserved011 ∧ decodeTableWord 35 0x700000000 = some .reserved111 ∧
  decodeTableWord 8 0x18 = some (.groupControlByte 1 2 3 1) ∧ decodeTableWord 8 0xC0 = some (.groupControlByte 4 1 1 1) ∧
  decodeTableWord 34 0x00000012C = some (.response .ok 300)

/-! ## Datapath -/

/-- R55: `WIDTH(v)` is the least `w` in 1..4 with `v < 2^(8w)`. -/
def Obligations.WidthIsLeast : Prop :=
  ∀ v : Word, 1 ≤ width v ∧ width v ≤ 4 ∧ v.toNat < 2 ^ (8 * width v) ∧
    ∀ w, 1 ≤ w → v.toNat < 2 ^ (8 * w) → width v ≤ w

/-- R56: the control byte is the sum of the four shifted fields, slot 0 in the most significant. -/
def Obligations.PackPlacesTheFields : Prop :=
  ∀ w0 w1 w2 w3 : Nat, widthLegal w0 = true → widthLegal w1 = true → widthLegal w2 = true → widthLegal w3 = true →
    (pack w0 w1 w2 w3).toNat = (w0 - 1) * 64 + (w1 - 1) * 16 + (w2 - 1) * 4 + (w3 - 1)

/-- R68: `FIELD(c, k)` is `(c >> (6 - 2k)) & 3`, `DWIDTH` is one more, and it inverts PACK. -/
def Obligations.DwidthInvertsPack : Prop :=
  (∀ (c : Byte) (k : Fin 4), (field c k).toNat = c.toNat / 2 ^ (6 - 2 * k.val) % 4 ∧
    dwidth c k = (field c k).toNat + 1) ∧
  ∀ w0 w1 w2 w3 : Nat, widthLegal w0 = true → widthLegal w1 = true → widthLegal w2 = true → widthLegal w3 = true →
    dwidth (pack w0 w1 w2 w3) 0 = w0 ∧ dwidth (pack w0 w1 w2 w3) 1 = w1 ∧
    dwidth (pack w0 w1 w2 w3) 2 = w2 ∧ dwidth (pack w0 w1 w2 w3) 3 = w3

/-- R57: MARSHAL gives exactly `w` bytes; byte `j` is `v[8(w-1-j)+7 : 8(w-1-j)]`. At the minimal width the first byte is
not `00` unless it is the only one. -/
def Obligations.MarshalBytes : Prop :=
  ∀ (v : Word) (w : Nat), (marshal v w).length = w ∧
    (∀ j, j < w → (marshal v w)[j]? = some (v.extractLsb' (8 * (w - 1 - j)) 8)) ∧
    (1 < width v → (marshal v (width v))[0]? ≠ some 0)

/-- R69: one byte shifts the accumulator up by 8 bits and takes the byte in; fed at most four bytes from 0 it holds their
big-endian number; and assembling `MARSHAL(v, w)` gives `v`, for every `w` that holds `v`. -/
def Obligations.AccumulatorIsBigEndian : Prop :=
  (∀ (acc : Word) (b : Byte), accum acc b = BitVec.ofNat 32 (acc.toNat * 256 + b.toNat)) ∧
  (∀ bs : List Byte, bs.length ≤ 4 → (bs.foldl accum 0).toNat = bigEndian bs) ∧
  ∀ (v : Word) (w : Nat), w ≤ 4 → v.toNat < 2 ^ (8 * w) → (marshal v w).foldl accum 0 = v

/-- R70: byte `j` of a slot of `w` bytes is steered to lane `w - 1 - j`, the lanes above are `00`, and this gives what the
accumulator gives. -/
def Obligations.LanesEqualAccumulator : Prop :=
  ∀ bs : List Byte, bs.length ≤ 4 → lanes bs = bs.foldl accum 0 ∧
    (∀ j, j < bs.length → bs[j]? = some ((lanes bs).extractLsb' (8 * (bs.length - 1 - j)) 8)) ∧
    ∀ l, bs.length ≤ l → l < 4 → (lanes bs).extractLsb' (8 * l) 8 = 0

/-- R58, R45: the length of a full group. -/
def Obligations.GroupLength : Prop :=
  ∀ a b c d : Word, (groupBytes a b c d).length = 1 + width a + width b + width c + width d ∧
    5 ≤ (groupBytes a b c d).length ∧ (groupBytes a b c d).length ≤ 17

/-- R59, R44: with `n` of 1..4 values pending, what a flush writes is the full group less `4 - n` bytes, every one of
them `00`, and it keeps the control byte and the bytes of the real values. -/
def Obligations.TruncationRemovesOnlyPadding : Prop :=
  ∀ e : Enc, e.count ≠ 0 →
    let q := e.slot.padded e.count.val
    groupBytes q.s0 q.s1 q.s2 q.s3 = e.flushBytes ++ List.replicate (4 - e.count.val) 0 ∧
    e.flushBytes.length = 1 + (([q.s0, q.s1, q.s2, q.s3].take e.count.val).map width).sum ∧ 2 ≤ e.flushBytes.length

/-- R71: every row of the end-of-stream detector's table. -/
def Obligations.EndOfStreamVerdicts : Prop :=
  (∀ (p : ReadFor) (b : Byte), eos p (.byte b) = .data b) ∧ eos .control .eod = .stop .cleanEnd ∧
  (∀ k : Fin 4, eos (.slotByte k) .eod = .stop (.shortGroup k)) ∧ ∀ p : ReadFor, eos p .err = .stop .hardError

/-! ## GVENC -/

/-- R62: one of the first three PUTs of a group stores its value at `slot[count]`, adds 1 to the count and answers
OK 0; nothing else changes. -/
def Obligations.PutAppends : Prop :=
  ∀ (v : Word) (s : State), s.EncReady → s.enc.count.val < 3 →
    ∃ e : Enc, exec (.put v) s =
        .next { s with enc := e, responses := s.responses ++ [⟨.enc, .ok, 0⟩] } ∧
      (∀ k : Fin 4, e.slot.get k = if k.val = s.enc.count.val then v else s.enc.slot.get k) ∧
      e.count.val = s.enc.count.val + 1 ∧ e.fault = false

/-- R62, R63: the fourth PUT writes the group of the four values in one write and answers OK with its length; the buffer
is then empty. -/
def Obligations.FourthPutWritesTheGroup : Prop :=
  ∀ (v : Word) (s : State) (k : Sink), s.EncReady → s.enc.count.val = 3 → s.sink.answer = some (.ok, k) →
    let g := groupBytes s.enc.slot.s0 s.enc.slot.s1 s.enc.slot.s2 v
    ∃ t, exec (.put v) s = .next t ∧ t.sink = { k with contents := s.sink.contents ++ g } ∧
      t.enc.count = 0 ∧ t.enc.fault = false ∧
      t.responses = s.responses ++ [⟨.enc, .ok, BitVec.ofNat 32 g.length⟩] ∧
      t.dec = s.dec ∧ t.source = s.source ∧ t.pending = s.pending ∧ t.port = s.port ∧ t.draws = s.draws

/-- R63, R64: FLUSH and CLOSE with values pending write their group, cut by one byte per missing value, and answer OK
with its length; the buffer is then empty. -/
def Obligations.FlushAndCloseWriteWhatIsPending : Prop :=
  ∀ (i : Instr) (s : State) (k : Sink), i = .flush ∨ i = .close → s.EncReady → s.enc.count ≠ 0 →
    s.sink.answer = some (.ok, k) →
    let n := s.enc.count.val
    let g := groupBytes s.enc.slot.s0 (if 1 < n then s.enc.slot.s1 else 0) (if 2 < n then s.enc.slot.s2 else 0)
      (if 3 < n then s.enc.slot.s3 else 0)
    let bs := g.take (g.length - (4 - n))
    ∃ t, exec i s = .next t ∧ t.sink = { k with contents := s.sink.contents ++ bs } ∧
      t.enc.count = 0 ∧ t.enc.fault = false ∧
      t.responses = s.responses ++ [⟨.enc, .ok, BitVec.ofNat 32 bs.length⟩] ∧
      t.dec = s.dec ∧ t.source = s.source ∧ t.pending = s.pending ∧ t.port = s.port ∧ t.draws = s.draws

/-- R54, R63, R64: FLUSH and CLOSE with nothing pending are a no-op that answers OK 0, whatever the sink would answer. -/
def Obligations.FlushAndCloseOfNothing : Prop :=
  ∀ (i : Instr) (s : State), i = .flush ∨ i = .close → s.EncReady → s.enc.count = 0 →
    exec i s = .next { s with responses := s.responses ++ [⟨.enc, .ok, 0⟩] }

/-- R64: CLOSE is FLUSH in every state, and a PUT after it is carried out as after FLUSH. -/
def Obligations.CloseIsFlush : Prop :=
  ∀ s : State, exec .close s = exec .flush s ∧
    ∀ v : Word, execAll [.close, .put v] s = execAll [.flush, .put v] s

/-- R65, R26: when the write of a fourth PUT, a FLUSH or a CLOSE fails, `enc.fault` is set, the answer is IOERR, and the
sink has gained some part, from its start, of the bytes that were to be written. -/
def Obligations.WriteErrorLatchesTheFault : Prop :=
  ∀ (i : Instr) (e : Enc) (s : State) (k : Sink), s.EncReady → s.sink.answer = some (.fail, k) →
    ((i = .flush ∨ i = .close) ∧ s.enc.count ≠ 0 ∧ e = s.enc ∨
      ∃ v h, i = .put v ∧ s.enc.count.val = 3 ∧ e = s.enc.appended v h) →
    ∃ t p w, exec i s = .next t ∧ t.enc.fault = true ∧ p <+: e.flushBytes ∧
      t.sink = { k with contents := s.sink.contents ++ p } ∧ t.responses = s.responses ++ [⟨.enc, .ioerr, w⟩] ∧
      t.dec = s.dec ∧ t.source = s.source ∧ t.pending = s.pending ∧ t.port = s.port

/-- R61, R74, R85: while a unit's fault flag is 1, every command on its port is refused and nothing changes but the
response (whose payload is open, log 6) and the count of draws (log 9). -/
def Obligations.FaultedUnitRefusesEveryCommand : Prop :=
  ∀ (w : BitVec 35) (s : State), s.faultOf s.port = true → exec (decodeCommand w) s = .next s.afterRefusal

/-- R50: a command word whose op is reserved, or belongs to the other unit (GET on GVENC's port; PUT, FLUSH or CLOSE on
GVDEC's), is refused: the response says so (its payload is open, log 6), no state changes but the model's count of draws
(log 9), and neither stream is touched. -/
def Obligations.ReservedAndForeignWordsAreRefused : Prop :=
  ∀ (w : BitVec 35) (s : State),
    let op := w.extractLsb' 32 3
    (op = 0b011#3 ∨ op = 0b101#3 ∨ op = 0b110#3 ∨ op = 0b111#3 ∨ (s.port = .enc ∧ op = 0b100#3) ∨
      (s.port = .dec ∧ (op = 0b000#3 ∨ op = 0b001#3 ∨ op = 0b010#3))) →
    exec (decodeCommand w) s = .next s.afterRefusal

/-- R50, R61, R74: the reserved instructions are refused on either port, in every state, and nothing else changes. -/
def Obligations.ReservedCommandsAreRefused : Prop :=
  ∀ (i : Instr) (s : State), i = .reserved011 ∨ i = .reserved101 ∨ i = .reserved110 ∨ i = .reserved111 →
    exec i s = .next s.afterRefusal

/-- R108, U11: where a write or a read is never answered, the unit has no step (log 4): a fourth PUT and a FLUSH or CLOSE
with values pending before a silent sink; a GET whose source falls silent at the control byte, or at any byte of any slot
(silence is not end-of-data: no short group comes of it); and a control byte that meets such a source (log 12). -/
def Obligations.SilentStreamsHang : Prop :=
  (∀ s : State, s.EncReady → s.sink.answer = none →
    (∀ v : Word, s.enc.count.val = 3 → exec (.put v) s = .fault .sinkSilent) ∧
    (s.enc.count ≠ 0 → exec .flush s = .fault .sinkSilent ∧ exec .close s = .fault .sinkSilent)) ∧
  (∀ (s : State) (as : List SrcAnswer) (m : Source), s.port = .dec → s.dec.NeedGroup →
    (as = [] ∨ ∃ (c : Byte) (b : Fin 4 → List Byte) (k : Fin 4) (part : List Byte),
      (∀ j, j < k → (b j).length = dwidth c j) ∧ part.length < dwidth c k ∧
      as = .byte c :: ((slotOrder.take k.val).flatMap b ++ part).map .byte) →
    s.source.Gives as m → m.read = none → exec .get s = .fault .sourceSilent) ∧
  ∀ (s : State) (w0 w1 w2 w3 : Nat) (b : Fin 4 → List Byte) (k : Fin 4) (part : List Byte) (m : Source),
    widthLegal w0 = true → widthLegal w1 = true → widthLegal w2 = true → widthLegal w3 = true →
    let c := pack w0 w1 w2 w3
    s.dec.NeedGroup → (∀ j, j < k → (b j).length = dwidth c j) → part.length < dwidth c k →
    s.source.Gives (((slotOrder.take k.val).flatMap b ++ part).map .byte) m → m.read = none →
    exec (.groupControlByte w0 w1 w2 w3) s = .fault .sourceSilent

/-! ## GVDEC -/

/-- R75: with values buffered, GET delivers the one at the read pointer and moves past it; the source is not touched. -/
def Obligations.GetDeliversBuffered : Prop :=
  ∀ (s : State) (k : Fin 4), s.port = .dec → s.dec.HasBuffered → s.dec.rptr = k.castSucc →
    exec .get s =
      .next { s with
        dec := { s.dec with rptr := k.succ }
        responses := s.responses ++ [⟨.dec, .ok, s.dec.buf.get k⟩] }

/-- R75, R82: an exhausted decoder answers EOD; no source access, and no change but the response. -/
def Obligations.GetExhausted : Prop :=
  ∀ s : State, s.port = .dec → s.dec.Exhausted →
    ∃ p, exec .get s =
      .next { s with responses := s.responses ++ [⟨.dec, .eod, p⟩], draws := s.draws + 1 }

/-- R75, R76: a GET that reads a full group fills the four values from the bytes the control byte declares, delivers
the first and leaves `avail` 4, `rptr` 1, `finished` 0. -/
def Obligations.GetReadsFullGroup : Prop :=
  ∀ (s : State) (c : Byte) (b : Fin 4 → List Byte) (r : Source), s.port = .dec → s.dec.NeedGroup →
    (∀ k, (b k).length = dwidth c k) →
    s.source.Gives (.byte c :: (slotOrder.flatMap b).map .byte) r →
    ∃ d : Dec, exec .get s =
        .next { s with
          dec := d
          source := r
          responses := s.responses ++ [⟨.dec, .ok, BitVec.ofNat 32 (bigEndian (b 0))⟩] } ∧
      d.avail = 4 ∧ d.rptr = 1 ∧ d.finished = false ∧ d.fault = false ∧
      ∀ k, d.buf.get k = BitVec.ofNat 32 (bigEndian (b k))

/-- R71, R75, R76, D8: a GET whose group read meets end-of-data in slot `k` keeps slots 0 to `k - 1`, drops what it had
of slot `k`, marks the source ended, and delivers slot 0; with `k` = 0 it answers EOD. -/
def Obligations.GetReadsShortGroup : Prop :=
  ∀ (s : State) (c : Byte) (b : Fin 4 → List Byte) (k : Fin 4) (part : List Byte) (r : Source),
    s.port = .dec → s.dec.NeedGroup → (∀ j, j < k → (b j).length = dwidth c j) → part.length < dwidth c k →
    s.source.Gives (.byte c :: (((slotOrder.take k.val).flatMap b ++ part).map .byte ++ [.eod])) r →
    ∃ t, exec .get s = .next t ∧ t.dec.avail = k.castSucc ∧ t.dec.finished = true ∧ t.dec.fault = false ∧
      (∀ j, j < k → t.dec.buf.get j = BitVec.ofNat 32 (bigEndian (b j))) ∧
      (∀ j, k ≤ j → t.dec.buf.get j = s.dec.buf.get j) ∧ t.source = r ∧
      (if k = 0 then t.dec.rptr = 0 ∧ ∃ p, t.responses = s.responses ++ [⟨.dec, .eod, p⟩]
       else t.dec.rptr = 1 ∧ t.responses = s.responses ++ [⟨.dec, .ok, BitVec.ofNat 32 (bigEndian (b 0))⟩]) ∧
      t.enc = s.enc ∧ t.sink = s.sink ∧ t.pending = s.pending ∧ t.port = s.port

/-- R76, R18, C4: end-of-data on the control byte's read answers EOD and marks the source ended; nothing else of GVDEC
changes. -/
def Obligations.GetMeetsCleanEnd : Prop :=
  ∀ (s : State) (r : Source), s.port = .dec → s.dec.NeedGroup → s.source.Gives [.eod] r →
    ∃ p, exec .get s =
      .next { s with
        dec := { s.dec with finished := true }
        source := r
        responses := s.responses ++ [⟨.dec, .eod, p⟩]
        draws := s.draws + 1 }

/-- R78, R83: an `Err` answer to any read of the group, on the control byte or on a byte of any slot, sets `dec.fault`
and answers IOERR; no value is delivered. -/
def Obligations.ReadErrorLatchesTheFault : Prop :=
  ∀ (s : State) (as : List SrcAnswer) (r : Source), s.port = .dec → s.dec.NeedGroup →
    (as = [] ∨ ∃ (c : Byte) (b : Fin 4 → List Byte) (k : Fin 4) (part : List Byte),
      (∀ j, j < k → (b j).length = dwidth c j) ∧ part.length < dwidth c k ∧
      as = .byte c :: ((slotOrder.take k.val).flatMap b ++ part).map .byte) →
    s.source.Gives (as ++ [.err]) r →
    ∃ t p, exec .get s = .next t ∧ t.dec.fault = true ∧ t.source = r ∧
      t.responses = s.responses ++ [⟨.dec, .ioerr, p⟩] ∧
      t.enc = s.enc ∧ t.sink = s.sink ∧ t.pending = s.pending ∧ t.port = s.port

/-- R46, R73, R86, R105: there is no malformed stream. From a source that reports no failure, every GET of an unfaulted
decoder answers OK or EOD and leaves it unfaulted, whatever the bytes are. -/
def Obligations.EveryStreamDecodes : Prop :=
  ∀ s : State, s.DecReady → s.source.Honest →
    ∃ t r, exec .get s = .next t ∧ t.responses = s.responses ++ [r] ∧ (r.status = .ok ∨ r.status = .eod) ∧
      t.dec.fault = false ∧ t.source.Honest

/-- R30, R107: a GET makes at most 17 reads, and none when a value is buffered, the decoder is exhausted, or the command
is refused; otherwise at least one. -/
def Obligations.GetReadCount : Prop :=
  ∀ s t : State, exec .get s = .next t →
    if s.DecReady ∧ ¬ s.dec.rptr < s.dec.avail ∧ s.dec.finished = false then
      s.source.reads + 1 ≤ t.source.reads ∧ t.source.reads ≤ s.source.reads + 17
    else t.source = s.source

/-- R18, D9: once the source has said end-of-data, no instruction makes an unfaulted decoder read it again or clears the
mark. -/
def Obligations.EndOfDataIsFinal : Prop :=
  ∀ (i : Instr) (s t : State), s.dec.fault = false → s.dec.finished = true → exec i s = .next t →
    t.dec.finished = true ∧ t.dec.fault = false ∧ t.source.reads = s.source.reads

/-! ## The table's two other words -/

/-- R42, R71, R76 (log 12): a control byte that a decoder in NeedGroup meets is latched, its slots are read by the widths
it declares, and the first value is delivered. -/
def Obligations.ControlByteReadsItsGroup : Prop :=
  ∀ (s : State) (w0 w1 w2 w3 : Nat) (b0 b1 b2 b3 : List Byte) (r : Source),
    widthLegal w0 = true → widthLegal w1 = true → widthLegal w2 = true → widthLegal w3 = true →
    b0.length = w0 → b1.length = w1 → b2.length = w2 → b3.length = w3 → s.dec.NeedGroup →
    s.source.Gives ((b0 ++ b1 ++ b2 ++ b3).map .byte) r →
    ∃ t, exec (.groupControlByte w0 w1 w2 w3) s = .next t ∧ t.dec.avail = 4 ∧ t.dec.rptr = 1 ∧
      t.dec.finished = false ∧ t.dec.fault = false ∧
      t.dec.buf = ⟨BitVec.ofNat 32 (bigEndian b0), BitVec.ofNat 32 (bigEndian b1), BitVec.ofNat 32 (bigEndian b2),
        BitVec.ofNat 32 (bigEndian b3)⟩ ∧
      t.source.answers = r.answers ∧ t.source.after = r.after ∧ t.source.reads = r.reads + 1 ∧
      t.responses = s.responses ++ [⟨.dec, .ok, BitVec.ofNat 32 (bigEndian b0)⟩]

/-- R52 (log 13): a response word goes to the host and nothing else changes. -/
def Obligations.ResponseGoesToTheHost : Prop :=
  ∀ (st : Status) (p : Word) (s : State),
    exec (.response st p) s = .next { s with responses := s.responses ++ [⟨s.port, st, p⟩] }

/-! ## Frames -/

/-- What PUT leaves unchanged: all of GVDEC and its source; the sink but for bytes appended by a fourth value, which are
a part, from its start, of the group of the four; the slots but the one it stores to, unless a write failed. -/
def Obligations.PutFrame : Prop :=
  ∀ (v : Word) (s t : State), exec (.put v) s = .next t →
    t.dec = s.dec ∧ t.source = s.source ∧ t.pending = s.pending ∧ t.port = s.port ∧
    (∃ r, t.responses = s.responses ++ [r] ∧ r.port = s.port) ∧
    (if s.EncReady ∧ s.enc.count.val = 3 then
      ∃ p, p <+: groupBytes s.enc.slot.s0 s.enc.slot.s1 s.enc.slot.s2 v ∧
        t.sink.contents = s.sink.contents ++ p ∧ t.sink.after = s.sink.after ∧ t.sink.writes = s.sink.writes + 1
     else t.sink = s.sink) ∧
    (t.enc.fault = s.enc.fault → ∀ k : Fin 4, k.val ≠ s.enc.count.val → t.enc.slot.get k = s.enc.slot.get k) ∧
    (¬ s.EncReady → t.enc = s.enc)

/-- What FLUSH and CLOSE leave unchanged: all of GVDEC and its source; the sink but for bytes appended, a part, from its
start, of the pending group; the slots of the pending values, unless the write failed. -/
def Obligations.FlushAndCloseFrame : Prop :=
  ∀ (i : Instr) (s t : State), i = .flush ∨ i = .close → exec i s = .next t →
    t.dec = s.dec ∧ t.source = s.source ∧ t.pending = s.pending ∧ t.port = s.port ∧
    (∃ r, t.responses = s.responses ++ [r] ∧ r.port = s.port) ∧
    (if s.EncReady ∧ s.enc.count ≠ 0 then
      ∃ p, p <+: s.enc.flushBytes ∧ t.sink.contents = s.sink.contents ++ p ∧ t.sink.after = s.sink.after ∧
        t.sink.writes = s.sink.writes + 1
     else t.sink = s.sink) ∧
    (t.enc.fault = s.enc.fault → ∀ k : Fin 4, k.val < s.enc.count.val → t.enc.slot.get k = s.enc.slot.get k) ∧
    (¬ s.EncReady ∨ s.enc.count = 0 → t.enc = s.enc)

/-- What GET leaves unchanged: all of GVENC and its sink; and GVDEC's values and its source unless it reads a group, when
the values past the available ones stay as they were, unless a read failed. -/
def Obligations.GetFrame : Prop :=
  ∀ s t : State, exec .get s = .next t →
    t.enc = s.enc ∧ t.sink = s.sink ∧ t.pending = s.pending ∧ t.port = s.port ∧
    (∃ r, t.responses = s.responses ++ [r] ∧ r.port = s.port) ∧
    (if s.DecReady ∧ ¬ s.dec.rptr < s.dec.avail ∧ s.dec.finished = false then
      t.source.after = s.source.after ∧
      (t.dec.fault = false → ∀ k : Fin 4, t.dec.avail.val ≤ k.val → t.dec.buf.get k = s.dec.buf.get k)
     else t.source = s.source ∧ t.dec.buf = s.dec.buf ∧ t.dec.avail = s.dec.avail ∧
      t.dec.finished = s.dec.finished ∧ t.dec.fault = s.dec.fault)

/-- What GROUP_CONTROL_BYTE leaves unchanged (log 12): all of GVENC and its sink; and, where the decoder does not want a
control byte, its values, with the byte still the next one the source gives. -/
def Obligations.ControlByteFrame : Prop :=
  ∀ (w0 w1 w2 w3 : Nat) (s t : State), exec (.groupControlByte w0 w1 w2 w3) s = .next t →
    t.enc = s.enc ∧ t.sink = s.sink ∧ t.pending = s.pending ∧ t.port = .dec ∧
    (∃ r, t.responses = s.responses ++ [r] ∧ r.port = .dec) ∧
    (if s.dec.fault = false ∧ ¬ s.dec.rptr < s.dec.avail ∧ s.dec.finished = false then
      t.source.after = s.source.after ∧
      (t.dec.fault = false → ∀ k : Fin 4, t.dec.avail.val ≤ k.val → t.dec.buf.get k = s.dec.buf.get k)
     else t.source = s.source.offer (pack w0 w1 w2 w3) ∧ t.dec.buf = s.dec.buf ∧ t.dec.avail = s.dec.avail ∧
      t.dec.finished = s.dec.finished ∧ t.dec.fault = s.dec.fault)

/-- R8, R25, R95: the units share nothing. Only PUT, FLUSH and CLOSE change GVENC or reach the sink; only GET, and the
control byte it meets, change GVDEC or reach the source. -/
def Obligations.UnitsShareNothing : Prop :=
  ∀ (i : Instr) (s t : State), exec i s = .next t →
    (t.enc ≠ s.enc ∨ t.sink ≠ s.sink → (∃ v, i = .put v) ∨ i = .flush ∨ i = .close) ∧
    (t.dec ≠ s.dec ∨ t.source ≠ s.source → i = .get ∨ ∃ w0 w1 w2 w3, i = .groupControlByte w0 w1 w2 w3)

/-- R25, R26: the sink is append-only; no instruction takes back a byte. -/
def Obligations.SinkOnlyGrows : Prop :=
  ∀ (i : Instr) (s t : State), exec i s = .next t → s.sink.contents <+: t.sink.contents

/-! ## The whole machine -/

/-- A step runs the decoded instruction: the oldest event the host has sent is a word that decodes to `i`, and unless its
unit must wait on a silent stream the step is `exec` of `i` on the port it was sent to, with that event taken (log 10,
log 12, log 13). -/
def Obligations.StepRunsTheDecodedInstruction : Prop :=
  (∀ (s : State) (p : Port) (w : BitVec 35) (es : List Event) (i : Instr),
    s.pending = .command p w :: es → decode 35 w.toNat = .ok i →
    let r := exec i { s with pending := es, port := p }
    waitOf r = none → step s = r) ∧
  (∀ (s : State) (c : Byte) (es : List Event) (i : Instr),
    s.pending = .controlByte c :: es → decode 8 c.toNat = .ok i →
    let r := exec i { s with pending := es, port := .dec }
    waitOf r = none → step s = r) ∧
  (∀ (s : State) (p : Port) (w : BitVec 34) (es : List Event) (i : Instr),
    s.pending = .responseWord p w :: es → decode 34 w.toNat = .ok i →
    let r := exec i { s with pending := es, port := p }
    waitOf r = none → step s = r)

/-- R8, R95, R108, U11: a unit whose command waits on a silent stream holds up its own events only. Events `h :: hs` of one
unit, the first of which waits, are passed over, and the step carries out the other unit's next event (unless that waits
too); they stay sent, in order. With nothing else sent, nothing has a step (log 4, log 10, log 22). -/
def Obligations.WaitingUnitHoldsUpItselfOnly : Prop :=
  ∀ (s : State) (h : Event) (hs : List Event) (f : Fault),
    (∀ e ∈ hs, e.unit = h.unit) → waitOf (carryOut { s with pending := s.pending.tail } h) = some f →
    (∀ (e : Event) (es : List Event), e.unit ≠ h.unit → s.pending = h :: hs ++ e :: es →
      let r := carryOut { s with pending := h :: hs ++ es } e
      waitOf r = none → step s = r) ∧
    (s.pending = h :: hs → step s = .fault f)

/-- R108: every command terminates, with a response, when every stream access it issues is answered. -/
def Obligations.EveryCommandTerminates : Prop :=
  ∀ (w : BitVec 35) (s : State), s.Inv → s.sink.after ≠ .silent → s.source.after ≠ .silent →
    ∃ (t : State) (r : Response), exec (decodeCommand w) s = .next t ∧ t.responses = s.responses ++ [r]

/-- R52, R48: every command that is answered at all gets exactly one response, from the unit it was sent to. -/
def Obligations.OneResponsePerCommand : Prop :=
  ∀ (s t : State) (p : Port) (w : BitVec 35) (es : List Event), s.pending = .command p w :: es →
    exec (decodeCommand w) { s with pending := es, port := p } = .next t →
    step s = .next t ∧ (∃ r : Response, t.responses = s.responses ++ [r] ∧ r.port = p) ∧ t.pending = es

/-- R96: a reset puts the unit's fields at rule R24's values, sends nothing, and touches neither the other unit nor, unless
the host attaches a new one with it, a stream (R98). The buffers' values are the model's (log 3, log 15). -/
def Obligations.ResetEvents : Prop :=
  (∀ (s : State) (es : List Event) (a : Option Sink), s.pending = .resetEnc a :: es →
    ∃ e : Enc, step s = .next { s with enc := e, sink := a.getD s.sink, pending := es } ∧
      e.count = 0 ∧ e.fault = false) ∧
  (∀ (s : State) (es : List Event) (a : Option Source), s.pending = .resetDec a :: es →
    ∃ d : Dec, step s = .next { s with dec := d, source := a.getD s.source, pending := es } ∧
      d.avail = 0 ∧ d.rptr = 0 ∧ d.finished = false ∧ d.fault = false)

/-- R24, R97: what reset leaves, for the fields whose value the spec gives; the decoder is in NeedGroup. -/
def Obligations.ResetState : Prop :=
  State.reset.enc.count = 0 ∧ State.reset.enc.fault = false ∧ State.reset.dec.avail = 0 ∧ State.reset.dec.rptr = 0 ∧
    State.reset.dec.finished = false ∧ State.reset.dec.fault = false ∧ State.reset.dec.NeedGroup

/-- R14, R20: both units are in a legal idle state after reset. -/
def Obligations.ResetIsLegal : Prop := State.reset.Inv

/-- R14, R20: every step, whatever the host sent and the streams answer, keeps both units in a legal idle state. -/
def Obligations.StepKeepsUnitsLegal : Prop := ∀ s t : State, s.Inv → step s = .next t → t.Inv

/-- R13, R19, R91: a fault is left only by reset. A step leaves a faulted unit as it is and makes no access to its stream,
or it takes a reset of that unit, which is all it does. GVDEC's source is as it was too, or a control byte that was sent
now stands before its other answers (log 12). A reset leaves rule R24's values, in the fields the spec gives one (what it
leaves in the buffer is the model's, log 3), and the stream as it was or the one attached with it (log 15); it may stand
behind events of the other unit, which waits (log 10). -/
def Obligations.FaultsAreLeftOnlyByReset : Prop :=
  ∀ s t : State, step s = .next t →
    (s.enc.fault = true → (t.enc = s.enc ∧ t.sink = s.sink) ∨
      ∃ (held es : List Event) (a : Option Sink) (e : Enc), s.pending = held ++ .resetEnc a :: es ∧
        t = { s with enc := e, sink := a.getD s.sink, pending := held ++ es } ∧ e.count = 0 ∧ e.fault = false) ∧
    (s.dec.fault = true →
      (t.dec = s.dec ∧ (t.source = s.source ∨ ∃ (held es : List Event) (c : Byte),
        s.pending = held ++ .controlByte c :: es ∧ t.pending = held ++ es ∧ t.source = s.source.offer c)) ∨
      ∃ (held es : List Event) (a : Option Source) (d : Dec), s.pending = held ++ .resetDec a :: es ∧
        t = { s with dec := d, source := a.getD s.source, pending := held ++ es } ∧
        d.avail = 0 ∧ d.rptr = 0 ∧ d.finished = false ∧ d.fault = false)

/-- R11, R13, R16, R19, R24: what the spec leaves unspecified is unobservable. Two states that differ only in slots past
`enc.count`, in values past `dec.avail`, or in the fields of a faulted unit, stay so under every instruction, with the same
responses, the same stream accesses and the same stops. -/
def Obligations.UnspecifiedFieldsAreUnobservable : Prop :=
  ∀ (i : Instr) (s s' : State), s.Same s' →
    (∀ t, exec i s = .next t → ∃ t', exec i s' = .next t' ∧ t.Same t') ∧
    (∀ r, exec i s = .fault r → exec i s' = .fault r) ∧ ∀ r, exec i s = .refused r → exec i s' = .refused r

/-- R108, R35: an encoder run from reset whose last command is a CLOSE answered OK leaves nothing pending and no fault, and
the sink has gained `ENCODE` of the values put, if R99 was respected. -/
def Obligations.EncoderRunsEndWell : Prop :=
  ∀ (s t : State) (is : List Instr), EncoderEndsWell s is t →
    t.enc.count = 0 ∧ t.enc.fault = false ∧
    (PartialFlushIsLast s is → t.sink.contents = s.sink.contents ++ encodeStream (valuesPut is))

/-- R108, R79: a decoder run from reset, at its first EOD, leaves GVDEC Exhausted; the source has given some bytes and one
end-of-data, and the responses before are OK with `DECODE` of these bytes. -/
def Obligations.DecoderRunsEndWell : Prop :=
  ∀ (s t : State) (rs : List Response), DecoderEndsWell s rs t →
    t.dec.Exhausted ∧ ∃ bs : List Byte, s.source.Gives (bs.map .byte ++ [.eod]) t.source ∧
      rs = (decodeStream bs).map fun v => ⟨.dec, .ok, v⟩

/-! ## The laws over streams -/

/-- R67: the length of an encoded sequence, its bounds, and how much shorter a partial group is than the full group of
the same values and zeros. -/
def Obligations.EncodedLength : Prop :=
  ∀ vs : List Word, (encodeStream vs).length = (vs.length + 3) / 4 + (vs.map width).sum ∧
    vs.length + (vs.length + 3) / 4 ≤ (encodeStream vs).length ∧
    (encodeStream vs).length ≤ 4 * vs.length + (vs.length + 3) / 4 ∧
    (1 ≤ vs.length → vs.length ≤ 3 →
      (encodeStream (vs ++ List.replicate (4 - vs.length) 0)).length = (encodeStream vs).length + (4 - vs.length))

/-- R66: after PUTs of `vs` the sink has gained the full groups and the rest is pending; a CLOSE (or FLUSH) then makes it
`ENCODE(vs)`, and the OK payloads add up to its length. -/
def Obligations.PutsThenCloseWriteTheEncoding : Prop :=
  ∀ (vs : List Word) (s : State), s.EncReady → s.enc.count = 0 → s.sink.Accepts →
    ∃ m t rs, execAll (vs.map .put) s = .next m ∧
      m.sink.contents = s.sink.contents ++ encodeStream (vs.take (4 * (vs.length / 4))) ∧
      m.enc.count.val = vs.length % 4 ∧
      (∀ k : Fin 4, k.val < vs.length % 4 → some (m.enc.slot.get k) = vs[4 * (vs.length / 4) + k.val]?) ∧
      exec .close m = .next t ∧ exec .flush m = .next t ∧
      t.sink.contents = s.sink.contents ++ encodeStream vs ∧ t.enc.count = 0 ∧ t.enc.fault = false ∧
      t.dec = s.dec ∧ t.source = s.source ∧
      t.responses = s.responses ++ rs ∧ rs.length = vs.length + 1 ∧ (∀ r ∈ rs, r.status = .ok) ∧
      (rs.map fun r => r.payload.toNat).sum = (encodeStream vs).length

/-- R79, R39: GETs on the bytes `bs` followed by end-of-data deliver exactly `DECODE(bs)`; then EOD, and EOD for ever. -/
def Obligations.GetsDeliverTheDecoding : Prop :=
  ∀ (bs : List Byte) (s : State) (r : Source), s.port = .dec → s.dec.NeedGroup →
    s.source.Gives (bs.map .byte ++ [.eod]) r →
    ∃ t, execAll (List.replicate (decodeStream bs).length .get) s = .next t ∧
      t.responses = s.responses ++ (decodeStream bs).map (fun v => ⟨.dec, .ok, v⟩) ∧
      ∀ n, ∃ (u : State) (ps : List Word), execAll (List.replicate n .get) t = .next u ∧ ps.length = n ∧
        u.responses = t.responses ++ ps.map (fun p => ⟨.dec, .eod, p⟩)

/-- R80: decoding an encoding gives the values back; the converse does not hold, and a stream with a partial flush in its
middle does not round-trip. -/
def Obligations.DecodeInvertsEncodeOnStreams : Prop :=
  (∀ vs : List Word, decodeStream (encodeStream vs) = vs) ∧ (∃ bs : List Byte, encodeStream (decodeStream bs) ≠ bs) ∧
    ∃ vs ws : List Word, decodeStream (encodeStream vs ++ encodeStream ws) ≠ vs ++ ws

/-- R80, R39, on the machine: PUTs of `vs` and a CLOSE, then a GVDEC reset onto the bytes the sink gained; its GETs deliver
`vs` in order, and the next GET answers EOD. -/
def Obligations.RoundTripOnTheMachine : Prop :=
  ∀ (vs : List Word) (s : State), s.EncReady → s.enc.count = 0 → s.sink.Accepts →
    ∃ t, execAll (vs.map .put ++ [.close]) s = .next t ∧
      let d := (t.resetDecoder (some (Source.ofBytes (t.sink.contents.drop s.sink.contents.length)))).withPort .dec
      ∃ u w p, execAll (List.replicate vs.length .get) d = .next u ∧
        u.responses = d.responses ++ vs.map (fun v => ⟨.dec, .ok, v⟩) ∧
        exec .get u = .next w ∧ w.responses = u.responses ++ [⟨.dec, .eod, p⟩]

/-- R99 and R73, the spec's own streams: a partial flush in mid-stream is misread without an error, and a slot that is not
of minimal width is read all the same. -/
def Obligations.HazardStreams : Prop :=
  encodeStream [5] ++ encodeStream [6] = [0x00, 0x05, 0x00, 0x06] ∧
  decodeStream [0x00, 0x05, 0x00, 0x06] = [5, 0, 6] ∧
  decodeStream [0x00, 0x05] = [5] ∧ decodeStream [0x40, 0x00, 0x05] = [5]
end

