-- ==== Sys2Proof/Laws/Datapath.lean ====
section
/-! SUPPORT. The small facts of the datapath: register access, widths, the marshaller, the big-endian number, and the
padded group of a flush. -/

namespace Sys2Proof.Machine

/-! ### Registers -/

/-- A register reads what was last written to it, and a write leaves the other registers alone. -/
theorem Quad.get_set (q : Quad) (j k : Fin 4) (v : Word) :
    (q.set j v).get k = if k = j then v else q.get k := by
  fin_cases j <;> fin_cases k <;> rfl

@[simp] theorem Quad.get_set_self (q : Quad) (k : Fin 4) (v : Word) : (q.set k v).get k = v := by simp [Quad.get_set]

/-- Two register sets that read alike are equal. -/
theorem Quad.ext_get {q r : Quad} (h : ∀ k, q.get k = r.get k) : q = r := by
  cases q; cases r
  have h0 := h 0; have h1 := h 1; have h2 := h 2; have h3 := h 3
  simp only [Quad.get] at h0 h1 h2 h3
  simp [h0, h1, h2, h3]

/-- Padding keeps the first `n` registers and clears the rest. -/
theorem Quad.get_padded (q : Quad) (n : Nat) (k : Fin 4) :
    (q.padded n).get k = if k.val < n then q.get k else 0 := by
  fin_cases k <;> rfl

@[simp] theorem Quad.padded_four (q : Quad) : q.padded 4 = q := rfl

/-! ### WIDTH and MARSHAL -/

theorem width_pos (v : Word) : 1 ≤ width v := by unfold width; split_ifs <;> omega

theorem width_le (v : Word) : width v ≤ 4 := by unfold width; split_ifs <;> omega

@[simp] theorem width_zero : width 0#32 = 1 := by decide

@[simp] theorem marshal_length (v : Word) (w : Nat) : (marshal v w).length = w := by
  induction w with
  | zero => rfl
  | succ w ih => simp [marshal, ih]

theorem groupBytes_length (a b c d : Word) :
    (groupBytes a b c d).length = 1 + width a + width b + width c + width d := by
  simp [groupBytes]; omega

@[simp] theorem marshal_zero_one : marshal 0#32 1 = [0#8] := by decide

/-- Cutting the group of one value leaves its control byte and its bytes. -/
theorem trunc_one (a : Word) : trunc (groupBytes a 0 0 0) 1 = pack (width a) 1 1 1 :: marshal a (width a) := by
  have e : groupBytes a 0 0 0 = (pack (width a) 1 1 1 :: marshal a (width a)) ++ [0, 0, 0] := by simp [groupBytes]
  rw [e, trunc, List.take_left']
  simp

/-- Cutting the group of two values leaves its control byte and their bytes. -/
theorem trunc_two (a b : Word) :
    trunc (groupBytes a b 0 0) 2 = pack (width a) (width b) 1 1 :: (marshal a (width a) ++ marshal b (width b)) := by
  have e : groupBytes a b 0 0 =
      (pack (width a) (width b) 1 1 :: (marshal a (width a) ++ marshal b (width b))) ++ [0, 0] := by simp [groupBytes]
  rw [e, trunc, List.take_left']
  simp; omega

/-- Cutting the group of three values leaves its control byte and their bytes. -/
theorem trunc_three (a b c : Word) :
    trunc (groupBytes a b c 0) 3 =
      pack (width a) (width b) (width c) 1 :: (marshal a (width a) ++ marshal b (width b) ++ marshal c (width c)) := by
  have e : groupBytes a b c 0 =
      (pack (width a) (width b) (width c) 1 :: (marshal a (width a) ++ marshal b (width b) ++ marshal c (width c))) ++ [0] := by
    simp [groupBytes]
  rw [e, trunc, List.take_left']
  simp; omega

/-- A group of four values is not cut. -/
theorem trunc_four (g : List Byte) : trunc g 4 = g := by simp [trunc]

/-! ### The accumulator and the big-endian number -/

theorem bigEndian_lt (bs : List Byte) : bigEndian bs < 256 ^ bs.length := by
  induction bs with
  | nil => simp [bigEndian]
  | cons b bs ih =>
    have hb : b.toNat < 256 := b.isLt
    have : b.toNat * 256 ^ bs.length ≤ 255 * 256 ^ bs.length := Nat.mul_le_mul_right _ (by omega)
    simp only [bigEndian, List.length_cons, pow_succ]
    omega

/-- The marshaller's bytes are the value's low bytes, most significant first. -/
theorem bigEndian_marshal (v : Word) (w : Nat) : bigEndian (marshal v w) = v.toNat % 256 ^ w := by
  induction w with
  | zero => simp [marshal, bigEndian, Nat.mod_one]
  | succ w ih =>
    have h : (2 : Nat) ^ (8 * w) = 256 ^ w := by rw [pow_mul]; norm_num
    simp only [marshal, bigEndian, marshal_length, ih, BitVec.extractLsb'_toNat, Nat.shiftRight_eq_div_pow, h]
    rw [pow_succ 256 w, Nat.mod_mul]
    ring

/-- One step of the accumulator, as a number: multiply by 256 and add the byte, in 32 bits. -/
theorem accum_eq (acc : Word) (b : Byte) : accum acc b = BitVec.ofNat 32 (acc.toNat * 256 + b.toNat) := by
  have hb : b.toNat < 256 := b.isLt
  apply BitVec.eq_of_toNat_eq
  have h1 : (acc <<< 8) ||| b.setWidth 32 = (acc <<< 8) + b.setWidth 32 := by
    rw [BitVec.add_eq_or_of_and_eq_zero]
    ext i hi
    simp only [BitVec.getElem_and, BitVec.getElem_shiftLeft, BitVec.getElem_setWidth, BitVec.getElem_zero]
    by_cases h : i < 8
    · simp [h]
    · simp [BitVec.getLsbD_of_ge b i (by omega)]
  rw [accum, h1, BitVec.toNat_add, BitVec.toNat_shiftLeft, BitVec.toNat_setWidth, BitVec.toNat_ofNat]
  simp only [Nat.shiftLeft_eq]
  omega

/-- The accumulator, fed the bytes `bs`, holds their big-endian number below what it held before, in 32 bits. -/
theorem foldl_accum (bs : List Byte) (acc : Word) :
    bs.foldl accum acc = BitVec.ofNat 32 (acc.toNat * 256 ^ bs.length + bigEndian bs) := by
  induction bs generalizing acc with
  | nil => simp [bigEndian]
  | cons b bs ih =>
    rw [List.foldl_cons, ih, accum_eq]
    apply BitVec.eq_of_toNat_eq
    simp only [BitVec.toNat_ofNat, bigEndian, List.length_cons]
    have key : (acc.toNat * 256 + b.toNat) % 2 ^ 32 * 256 ^ bs.length + bigEndian bs ≡
        (acc.toNat * 256 + b.toNat) * 256 ^ bs.length + bigEndian bs [MOD 2 ^ 32] :=
      ((Nat.mod_modEq _ _).mul_right _).add_right _
    rw [key]
    congr 1
    ring

/-- From 0 the accumulator holds the big-endian number of its bytes. -/
theorem foldl_accum_zero (bs : List Byte) : bs.foldl accum 0 = BitVec.ofNat 32 (bigEndian bs) := by
  simp [foldl_accum]

end Sys2Proof.Machine
end

