-- ==== Sys2Proof/Laws/Decode.lean ====
section
/-! SUPPORT. The decoder by length, and the fields of a word built from its parts. -/

namespace Sys2Proof

open Sys2Proof.Machine

/-- 35 bits decode as a command word. -/
theorem decode_command (w : BitVec 35) : decode 35 w.toNat = .ok (decodeCommand w) := by
  have h : w.toNat < 34359738368 := w.isLt
  simp [decode, h]

/-- 8 bits decode as a control byte. -/
theorem decode_controlByte (c : Byte) : decode 8 c.toNat = .ok (decodeControlByte c) := by
  have h : c.toNat < 256 := c.isLt
  simp [decode, h]

/-- 34 bits decode as a response word. -/
theorem decode_response (w : BitVec 34) : decode 34 w.toNat = .ok (decodeResponse w) := by
  have h : w.toNat < 17179869184 := w.isLt
  simp [decode, h]

/-- `op` is bits 34:32 of a command word. -/
theorem commandWord_op (op : BitVec 3) (imm : Word) : (commandWord op imm).extractLsb' 32 3 = op := by
  ext i hi
  simp [commandWord, hi, show 32 + i < 35 by omega, BitVec.getLsbD_eq_getElem]

/-- `imm` is bits 31:0 of a command word. -/
theorem commandWord_imm (op : BitVec 3) (imm : Word) : (commandWord op imm).extractLsb' 0 32 = imm := by
  ext i hi
  simp [commandWord, hi, show i < 35 by omega, BitVec.getLsbD_eq_getElem]

/-- The status is bits 33:32 of a response word. -/
theorem responseWord_status (st : Status) (p : Word) : (responseWord st p).extractLsb' 32 2 = statusBits st := by
  ext i hi
  simp [responseWord, hi, show 32 + i < 34 by omega, BitVec.getLsbD_eq_getElem]

/-- The payload is bits 31:0 of a response word. -/
theorem responseWord_payload (st : Status) (p : Word) : (responseWord st p).extractLsb' 0 32 = p := by
  ext i hi
  simp [responseWord, hi, show i < 34 by omega, BitVec.getLsbD_eq_getElem]

/-- A declared width is 1 to 4. -/
theorem widthLegal_cases {w : Nat} (h : widthLegal w = true) : w = 1 ∨ w = 2 ∨ w = 3 ∨ w = 4 := by
  simp [widthLegal] at h
  omega

/-- A control byte declares widths of 1 to 4 only. -/
theorem dwidth_legal (c : Byte) (k : Fin 4) : widthLegal (dwidth c k) = true := by
  have h := (field c k).isLt
  simp [widthLegal, dwidth]
  omega

end Sys2Proof
end

