-- ==== Sys2Proof/Laws/State.lean ====
section
/-! SUPPORT. One lemma per field of State per update: what each update leaves and what it sets. -/

namespace Sys2Proof.Machine

/-! ### `State.withEnc` -/

@[simp] theorem State.withEnc_enc (s : State) (e : Enc) : (s.withEnc e).enc = e := rfl
@[simp] theorem State.withEnc_dec (s : State) (e : Enc) : (s.withEnc e).dec = s.dec := rfl
@[simp] theorem State.withEnc_sink (s : State) (e : Enc) : (s.withEnc e).sink = s.sink := rfl
@[simp] theorem State.withEnc_source (s : State) (e : Enc) : (s.withEnc e).source = s.source := rfl
@[simp] theorem State.withEnc_pending (s : State) (e : Enc) : (s.withEnc e).pending = s.pending := rfl
@[simp] theorem State.withEnc_port (s : State) (e : Enc) : (s.withEnc e).port = s.port := rfl
@[simp] theorem State.withEnc_responses (s : State) (e : Enc) : (s.withEnc e).responses = s.responses := rfl
@[simp] theorem State.withEnc_draws (s : State) (e : Enc) : (s.withEnc e).draws = s.draws := rfl

/-! ### `State.withDec` -/

@[simp] theorem State.withDec_enc (s : State) (d : Dec) : (s.withDec d).enc = s.enc := rfl
@[simp] theorem State.withDec_dec (s : State) (d : Dec) : (s.withDec d).dec = d := rfl
@[simp] theorem State.withDec_sink (s : State) (d : Dec) : (s.withDec d).sink = s.sink := rfl
@[simp] theorem State.withDec_source (s : State) (d : Dec) : (s.withDec d).source = s.source := rfl
@[simp] theorem State.withDec_pending (s : State) (d : Dec) : (s.withDec d).pending = s.pending := rfl
@[simp] theorem State.withDec_port (s : State) (d : Dec) : (s.withDec d).port = s.port := rfl
@[simp] theorem State.withDec_responses (s : State) (d : Dec) : (s.withDec d).responses = s.responses := rfl
@[simp] theorem State.withDec_draws (s : State) (d : Dec) : (s.withDec d).draws = s.draws := rfl

/-! ### `State.withSink` -/

@[simp] theorem State.withSink_enc (s : State) (k : Sink) : (s.withSink k).enc = s.enc := rfl
@[simp] theorem State.withSink_dec (s : State) (k : Sink) : (s.withSink k).dec = s.dec := rfl
@[simp] theorem State.withSink_sink (s : State) (k : Sink) : (s.withSink k).sink = k := rfl
@[simp] theorem State.withSink_source (s : State) (k : Sink) : (s.withSink k).source = s.source := rfl
@[simp] theorem State.withSink_pending (s : State) (k : Sink) : (s.withSink k).pending = s.pending := rfl
@[simp] theorem State.withSink_port (s : State) (k : Sink) : (s.withSink k).port = s.port := rfl
@[simp] theorem State.withSink_responses (s : State) (k : Sink) : (s.withSink k).responses = s.responses := rfl
@[simp] theorem State.withSink_draws (s : State) (k : Sink) : (s.withSink k).draws = s.draws := rfl

/-! ### `State.withSource` -/

@[simp] theorem State.withSource_enc (s : State) (r : Source) : (s.withSource r).enc = s.enc := rfl
@[simp] theorem State.withSource_dec (s : State) (r : Source) : (s.withSource r).dec = s.dec := rfl
@[simp] theorem State.withSource_sink (s : State) (r : Source) : (s.withSource r).sink = s.sink := rfl
@[simp] theorem State.withSource_source (s : State) (r : Source) : (s.withSource r).source = r := rfl
@[simp] theorem State.withSource_pending (s : State) (r : Source) : (s.withSource r).pending = s.pending := rfl
@[simp] theorem State.withSource_port (s : State) (r : Source) : (s.withSource r).port = s.port := rfl
@[simp] theorem State.withSource_responses (s : State) (r : Source) : (s.withSource r).responses = s.responses := rfl
@[simp] theorem State.withSource_draws (s : State) (r : Source) : (s.withSource r).draws = s.draws := rfl

/-! ### `State.withPending` -/

@[simp] theorem State.withPending_enc (s : State) (es : List Event) : (s.withPending es).enc = s.enc := rfl
@[simp] theorem State.withPending_dec (s : State) (es : List Event) : (s.withPending es).dec = s.dec := rfl
@[simp] theorem State.withPending_sink (s : State) (es : List Event) : (s.withPending es).sink = s.sink := rfl
@[simp] theorem State.withPending_source (s : State) (es : List Event) : (s.withPending es).source = s.source := rfl
@[simp] theorem State.withPending_pending (s : State) (es : List Event) : (s.withPending es).pending = es := rfl
@[simp] theorem State.withPending_port (s : State) (es : List Event) : (s.withPending es).port = s.port := rfl
@[simp] theorem State.withPending_responses (s : State) (es : List Event) : (s.withPending es).responses = s.responses := rfl
@[simp] theorem State.withPending_draws (s : State) (es : List Event) : (s.withPending es).draws = s.draws := rfl

/-! ### `State.withPort` -/

@[simp] theorem State.withPort_enc (s : State) (p : Port) : (s.withPort p).enc = s.enc := rfl
@[simp] theorem State.withPort_dec (s : State) (p : Port) : (s.withPort p).dec = s.dec := rfl
@[simp] theorem State.withPort_sink (s : State) (p : Port) : (s.withPort p).sink = s.sink := rfl
@[simp] theorem State.withPort_source (s : State) (p : Port) : (s.withPort p).source = s.source := rfl
@[simp] theorem State.withPort_pending (s : State) (p : Port) : (s.withPort p).pending = s.pending := rfl
@[simp] theorem State.withPort_port (s : State) (p : Port) : (s.withPort p).port = p := rfl
@[simp] theorem State.withPort_responses (s : State) (p : Port) : (s.withPort p).responses = s.responses := rfl
@[simp] theorem State.withPort_draws (s : State) (p : Port) : (s.withPort p).draws = s.draws := rfl

/-! ### `State.sends` -/

@[simp] theorem State.sends_enc (s : State) (r : Response) : (s.sends r).enc = s.enc := rfl
@[simp] theorem State.sends_dec (s : State) (r : Response) : (s.sends r).dec = s.dec := rfl
@[simp] theorem State.sends_sink (s : State) (r : Response) : (s.sends r).sink = s.sink := rfl
@[simp] theorem State.sends_source (s : State) (r : Response) : (s.sends r).source = s.source := rfl
@[simp] theorem State.sends_pending (s : State) (r : Response) : (s.sends r).pending = s.pending := rfl
@[simp] theorem State.sends_port (s : State) (r : Response) : (s.sends r).port = s.port := rfl
@[simp] theorem State.sends_responses (s : State) (r : Response) : (s.sends r).responses = s.responses ++ [r] := rfl
@[simp] theorem State.sends_draws (s : State) (r : Response) : (s.sends r).draws = s.draws := rfl

/-! ### `State.drawn` -/

@[simp] theorem State.drawn_enc (s : State) : (s.drawn).enc = s.enc := rfl
@[simp] theorem State.drawn_dec (s : State) : (s.drawn).dec = s.dec := rfl
@[simp] theorem State.drawn_sink (s : State) : (s.drawn).sink = s.sink := rfl
@[simp] theorem State.drawn_source (s : State) : (s.drawn).source = s.source := rfl
@[simp] theorem State.drawn_pending (s : State) : (s.drawn).pending = s.pending := rfl
@[simp] theorem State.drawn_port (s : State) : (s.drawn).port = s.port := rfl
@[simp] theorem State.drawn_responses (s : State) : (s.drawn).responses = s.responses := rfl
@[simp] theorem State.drawn_draws (s : State) : (s.drawn).draws = s.draws + 1 := rfl

end Sys2Proof.Machine
end

