-- ==== Sys2Proof/Laws/Ops.lean ====
section
/-! SUPPORT. What each shared operation can do, said once: the common entry, a condition, the sink, DOFLUSH and PUT. -/

namespace Sys2Proof.Machine

/-! ### Responses and conditions -/

@[simp] theorem State.raise_refused (s : State) : s.raise .refused = s.afterRefusal := rfl

/-- EndOfData marks the source ended and answers EOD. -/
theorem State.raise_endOfData (s : State) :
    s.raise .endOfData =
      { s with
        dec := { s.dec with finished := true }
        responses := s.responses ++ [⟨.dec, .eod, Config.respPayloadOnError s.draws⟩]
        draws := s.draws + 1 } := rfl

/-- ReadError touches GVDEC's registers, the responses and the draws; the unit is faulted. -/
theorem State.raise_readError (s : State) :
    ∃ (d : Dec) (p : Word), d.fault = true ∧
      s.raise .readError =
        { s with dec := d, responses := s.responses ++ [⟨.dec, .ioerr, p⟩], draws := s.draws + 2 } :=
  ⟨_, _, rfl, rfl⟩

/-- WriteError touches GVENC's registers, the responses and the draws; the unit is faulted. -/
theorem State.raise_writeError (s : State) :
    ∃ (e : Enc) (p : Word), e.fault = true ∧
      s.raise .writeError =
        { s with enc := e, responses := s.responses ++ [⟨.enc, .ioerr, p⟩], draws := s.draws + 2 } :=
  ⟨_, _, rfl, rfl⟩

/-! ### The common entry -/

/-- A command that reaches its own unit, unfaulted, is carried out. -/
theorem enter_ready {p : Port} {body : State → Result} {s : State} (hp : s.port = p) (hf : s.faultOf p = false) :
    enter (some p) body s = body s := by simp [enter, hp, hf]

/-- A faulted unit refuses, whatever the command. -/
theorem enter_faulted {home : Option Port} {body : State → Result} {s : State} (hf : s.faultOf s.port = true) :
    enter home body s = .next s.afterRefusal := by simp [enter, hf]

/-- A command that is not the unit's is refused. -/
theorem enter_foreign {home : Option Port} {body : State → Result} {s : State} (hp : home ≠ some s.port) :
    enter home body s = .next s.afterRefusal := by simp [enter, hp]

/-- What the entry answers: a refusal, or what the operation's own rule answers. -/
theorem enter_cases (home : Option Port) (body : State → Result) (s : State) :
    (enter home body s = .next s.afterRefusal ∧ (home = some s.port → s.faultOf s.port = true)) ∨
      (home = some s.port ∧ s.faultOf s.port = false ∧ enter home body s = body s) := by
  unfold enter
  cases hf : s.faultOf s.port
  · by_cases hp : home = some s.port
    · exact .inr ⟨hp, rfl, by simp [hp]⟩
    · exact .inl ⟨by simp [hp], fun h => absurd h hp⟩
  · exact .inl ⟨by simp, fun _ => rfl⟩

/-! ### The sink -/

/-- An answer uses up one write and leaves the sink's contents and its last word. -/
theorem Sink.answer_spec {k k' : Sink} {a : SinkAnswer} (h : k.answer = some (a, k')) :
    k'.contents = k.contents ∧ k'.after = k.after ∧ k'.writes = k.writes + 1 := by
  unfold Sink.answer at h
  split at h
  · cases h; exact ⟨rfl, rfl, rfl⟩
  · split at h <;> first | (cases h; exact ⟨rfl, rfl, rfl⟩) | cases h

/-- An accepting sink answers Ok and still accepts. -/
theorem Sink.Accepts.answer {k : Sink} (h : k.Accepts) :
    ∃ k', k.answer = some (.ok, k') ∧ k'.Accepts ∧ k'.contents = k.contents := by
  obtain ⟨c, as, af, w⟩ := k
  obtain ⟨h1, rfl⟩ := h
  cases as with
  | nil => exact ⟨_, rfl, ⟨by simp, rfl⟩, rfl⟩
  | cons a as =>
    obtain rfl : a = .ok := h1 a (by simp)
    exact ⟨_, rfl, ⟨fun x hx => h1 x (List.mem_cons_of_mem _ hx), rfl⟩, rfl⟩

/-- What a flush writes is decided by the slots it has pending. -/
theorem Enc.flushBytes_pad (e : Enc) : e.pad.flushBytes = e.flushBytes := by
  simp only [Enc.flushBytes, Enc.pad, Quad.padded]
  split_ifs <;> rfl

/-- Everything DOFLUSH and its response can do: nothing pending; no answer; the group written; the write failed. -/
theorem flushAndRespond_cases (s : State) :
    (s.enc.count = 0 ∧ flushAndRespond s = .next (s.respondOk .enc 0)) ∨
    (s.enc.count ≠ 0 ∧ s.sink.answer = none ∧ flushAndRespond s = .fault .sinkSilent) ∨
    (∃ k, s.enc.count ≠ 0 ∧ s.sink.answer = some (.ok, k) ∧
      flushAndRespond s = .next { s with
        enc := s.enc.pad.emptied
        sink := k.append s.enc.flushBytes
        responses := s.responses ++ [⟨.enc, .ok, BitVec.ofNat 32 s.enc.flushBytes.length⟩] }) ∨
    (∃ k e p, s.enc.count ≠ 0 ∧ s.sink.answer = some (.fail, k) ∧ e.fault = true ∧
      flushAndRespond s = .next { s with
        enc := e
        sink := k.append (s.enc.flushBytes.take (Config.sinkFailPrefix s.draws))
        responses := s.responses ++ [⟨.enc, .ioerr, p⟩]
        draws := s.draws + 3 }) := by
  by_cases h0 : s.enc.count = 0
  · exact .inl ⟨h0, by simp [flushAndRespond, State.doFlush, h0]⟩
  · cases ha : s.sink.answer with
    | none => exact .inr (.inl ⟨h0, rfl, by simp [flushAndRespond, State.doFlush, State.sinkWrite, h0, ha]⟩)
    | some x =>
      obtain ⟨a, k⟩ := x
      cases a with
      | ok =>
        refine .inr (.inr (.inl ⟨k, h0, rfl, ?_⟩))
        simp [flushAndRespond, State.doFlush, State.sinkWrite, h0, ha]
        rfl
      | fail =>
        have hs : flushAndRespond s = .next (((s.withEnc s.enc.pad).withSink
            (k.append (s.enc.flushBytes.take (Config.sinkFailPrefix s.draws)))).drawn.raise .writeError) := by
          simp [flushAndRespond, State.doFlush, State.sinkWrite, h0, ha]
        exact .inr (.inr (.inr ⟨k, _, _, h0, rfl, rfl, hs⟩))

/-! ### PUT -/

/-- Appending keeps the other slots, adds one to the count and leaves the flag. -/
theorem Enc.appended_spec (e : Enc) (v : Word) (h : e.count.val < 4) :
    (∀ k : Fin 4, (e.appended v h).slot.get k = if k.val = e.count.val then v else e.slot.get k) ∧
      (e.appended v h).count.val = e.count.val + 1 ∧ (e.appended v h).fault = e.fault := by
  refine ⟨fun k => ?_, rfl, rfl⟩
  simp only [Enc.appended, Quad.get_set, Fin.ext_iff]

/-- PUT below the fourth value only appends; the fourth appends and flushes. -/
theorem putBody_cases (v : Word) (s : State) :
    (∃ h : s.enc.count.val < 4, s.enc.count.val < 3 ∧
      putBody v s = .next ((s.withEnc (s.enc.appended v h)).respondOk .enc 0)) ∨
    (∃ h : s.enc.count.val < 4, s.enc.count.val = 3 ∧
      putBody v s = flushAndRespond (s.withEnc (s.enc.appended v h))) ∨
    (s.enc.count.val = 4 ∧ putBody v s = .fault .putOnFullBuffer) := by
  rcases lt_or_ge s.enc.count.val 4 with h | h
  · have hc : (s.enc.appended v h).count = 4 ↔ s.enc.count.val = 3 := by
      rw [Fin.ext_iff, (s.enc.appended_spec v h).2.1]
      simp only [show ((4 : Fin 5) : Nat) = 4 from rfl]
      omega
    by_cases h3 : s.enc.count.val = 3
    · exact .inr (.inl ⟨h, h3, by simp [putBody, hc, h3]⟩)
    · exact .inl ⟨h, by omega, by simp [putBody, h, hc, h3]⟩
  · exact .inr (.inr ⟨by omega, by simp [putBody, Nat.not_lt.mpr h]⟩)

/-- The group that a fourth PUT writes: three pending values and the new one, uncut. -/
theorem Enc.flushBytes_appended (e : Enc) (v : Word) (h : e.count.val < 4) (h3 : e.count.val = 3) :
    (e.appended v h).flushBytes = groupBytes e.slot.s0 e.slot.s1 e.slot.s2 v := by
  obtain ⟨⟨a, b, c, d⟩, n, f⟩ := e
  obtain rfl : n = 3 := Fin.ext h3
  show (groupBytes a b c v).take ((groupBytes a b c v).length - 0) = _
  rw [Nat.sub_zero, List.take_length]

end Sys2Proof.Machine
end

