-- ==== Sys2Proof/Laws/PerInstr.lean ====
section
/-! SUPPORT. Per instruction: the encoder's word has the width of the instruction's row of spec/opcode_table.json and
matches that row's mask. -/

namespace Sys2Proof.Laws.TableMatch

open Sys2Proof Sys2Proof.Machine

/-- The word of a well-formed instruction fits its row's `width_bits` and has the row's `match` under the row's `mask`. -/
def Statement (i : Instr) : Prop :=
  i.wellFormed = true → (encode i).nbits = tableWidth i ∧ (encode i).bits < 2 ^ tableWidth i ∧
    (encode i).bits &&& tableMask i = tableMatch i

/-- A command word under the mask is its `op` in place. -/
theorem commandWord_mask (op : BitVec 3) (imm : Word) : commandWord op imm &&& 0x700000000#35 = op.setWidth 35 <<< 32 := by
  ext i hi
  simp only [commandWord, BitVec.getElem_and, BitVec.getElem_or, BitVec.getElem_shiftLeft, BitVec.getElem_setWidth]
  by_cases h : i < 32
  · interval_cases i <;> simp
  · simp only [h, decide_false, Bool.not_false, Bool.true_and, BitVec.getLsbD_of_ge imm i (by omega), Bool.or_false]
    interval_cases i <;> simp

/-- What `Statement` asks of a command word, from its `op`. -/
theorem of_op {i : Instr} {op : BitVec 3} {imm : Word} (he : encode i = commandTableWord op imm) (hw : tableWidth i = 35)
    (hm : tableMask i = 0x700000000) (ht : tableMatch i = (op.setWidth 35 <<< 32).toNat) : Statement i := by
  intro _
  rw [he, hw, hm, ht]
  refine ⟨rfl, (commandWord op imm).isLt, ?_⟩
  rw [← commandWord_mask op imm, BitVec.toNat_and]
  rfl

theorem put (v : Word) : Statement (.put v) := of_op (op := 0b000#3) rfl rfl rfl rfl

theorem flush : Statement .flush := of_op (op := 0b001#3) rfl rfl rfl rfl

theorem close : Statement .close := of_op (op := 0b010#3) rfl rfl rfl rfl

theorem get : Statement .get := of_op (op := 0b100#3) rfl rfl rfl rfl

theorem reserved011 : Statement .reserved011 := of_op (op := 0b011#3) rfl rfl rfl rfl

theorem reserved101 : Statement .reserved101 := of_op (op := 0b101#3) rfl rfl rfl rfl

theorem reserved110 : Statement .reserved110 := of_op (op := 0b110#3) rfl rfl rfl rfl

theorem reserved111 : Statement .reserved111 := of_op (op := 0b111#3) rfl rfl rfl rfl

theorem groupControlByte (w0 w1 w2 w3 : Nat) : Statement (.groupControlByte w0 w1 w2 w3) := fun _ =>
  ⟨rfl, (pack w0 w1 w2 w3).isLt, Nat.and_zero _⟩

theorem response (status : Status) (payload : Word) : Statement (.response status payload) := fun _ =>
  ⟨rfl, (responseWord status payload).isLt, Nat.and_zero _⟩

end Sys2Proof.Laws.TableMatch
end

