-- ==== Sys2Proof/Laws/Reads.lean ====
section
/-! SUPPORT. What the source, the slot read, the group read and GET can do, said once. -/

namespace Sys2Proof.Machine

/-! ### The source -/

/-- One read uses up one answer and leaves the source's last word. -/
theorem Source.read_spec {r r' : Source} {a : SrcAnswer} (h : r.read = some (a, r')) :
    r'.after = r.after ∧ r'.reads = r.reads + 1 := by
  unfold Source.read at h
  split at h
  · cases h; exact ⟨rfl, rfl⟩
  · split at h <;> first | (cases h; exact ⟨rfl, rfl⟩) | cases h

/-- Reading the answers `as` takes one read each. -/
theorem Source.Gives.spec {r r' : Source} {as : List SrcAnswer} (h : r.Gives as r') :
    r'.after = r.after ∧ r'.reads = r.reads + as.length := by
  induction as generalizing r with
  | nil => cases h; exact ⟨rfl, rfl⟩
  | cons a as ih =>
    obtain ⟨m, hm, h⟩ := h
    obtain ⟨h1, h2⟩ := Source.read_spec hm
    obtain ⟨h3, h4⟩ := ih h
    exact ⟨h3.trans h1, by rw [h4, h2, List.length_cons]; omega⟩

/-- Answers given one part after another. -/
theorem Source.gives_append {r r' : Source} {as bs : List SrcAnswer} :
    r.Gives (as ++ bs) r' ↔ ∃ m, r.Gives as m ∧ m.Gives bs r' := by
  induction as generalizing r with
  | nil => exact ⟨fun h => ⟨r, rfl, h⟩, fun ⟨m, h, h'⟩ => by cases h; exact h'⟩
  | cons a as ih =>
    constructor
    · rintro ⟨m, hm, h⟩
      obtain ⟨n, h1, h2⟩ := ih.1 h
      exact ⟨n, ⟨m, hm, h1⟩, h2⟩
    · rintro ⟨n, ⟨m, hm, h1⟩, h2⟩
      exact ⟨m, hm, ih.2 ⟨n, h1, h2⟩⟩

/-- The source gives its listed answers in order. -/
theorem Source.gives_listed (as rest : List SrcAnswer) (af : SrcAfter) (n : Nat) :
    Source.Gives ⟨as ++ rest, af, n⟩ as ⟨rest, af, n + as.length⟩ := by
  induction as generalizing n with
  | nil => rfl
  | cons a as ih =>
    refine ⟨⟨as ++ rest, af, n + 1⟩, rfl, ?_⟩
    rw [List.length_cons, show n + (as.length + 1) = n + 1 + as.length by omega]
    exact ih (n + 1)

/-- How many reads a source has been given has no part in what it gives next. -/
theorem Source.Gives.laterReads {r r' : Source} {as : List SrcAnswer} (n : Nat) (h : r.Gives as r') :
    Source.Gives { r with reads := r.reads + n } as { r' with reads := r'.reads + n } := by
  induction as generalizing r with
  | nil => cases h; rfl
  | cons a as ih =>
    obtain ⟨m, hm, h⟩ := h
    refine ⟨_, ?_, ih h⟩
    obtain ⟨as', af, k⟩ := r
    cases as' with
    | cons b bs => cases hm; simp [Source.read, Nat.add_right_comm]
    | nil => cases af <;> cases hm <;> simp [Source.read, Nat.add_right_comm]

/-- A byte offered to a source is the next one it gives, before what it gave. -/
theorem Source.Gives.offered {r r' : Source} {as : List SrcAnswer} (c : Byte) (h : r.Gives as r') :
    (r.offer c).Gives (.byte c :: as) { r' with reads := r'.reads + 1 } := ⟨_, rfl, h.laterReads 1⟩

/-- The stream `bs` gives its bytes and then end-of-data. -/
theorem Source.ofBytes_gives (bs : List Byte) :
    (Source.ofBytes bs).Gives (bs.map .byte ++ [.eod]) ⟨[], .eod, bs.length + 1⟩ := by
  refine Source.gives_append.2 ⟨⟨[], .eod, bs.length⟩, ?_, ⟨_, rfl, rfl⟩⟩
  have h := Source.gives_listed (bs.map .byte) [] .eod 0
  rwa [List.append_nil, List.length_map, Nat.zero_add] at h

/-- An honest source answers every read, never with `Err`, and stays honest. -/
theorem Source.Honest.read {r : Source} (h : r.Honest) :
    ∃ a r', r.read = some (a, r') ∧ a ≠ .err ∧ r'.Honest := by
  obtain ⟨as, af, n⟩ := r
  obtain ⟨h1, rfl⟩ := h
  cases as with
  | nil => exact ⟨_, _, rfl, by simp, by simp, rfl⟩
  | cons a as => exact ⟨a, _, rfl, fun e => h1 (by simp [e]), fun e => h1 (List.mem_cons_of_mem _ e), rfl⟩

/-- Nothing an honest source gives is `Err`. -/
theorem Source.Honest.gives {r r' : Source} {as : List SrcAnswer} (h : r.Honest) (hg : r.Gives as r') :
    SrcAnswer.err ∉ as ∧ r'.Honest := by
  induction as generalizing r with
  | nil => cases hg; exact ⟨by simp, h⟩
  | cons a as ih =>
    obtain ⟨m, hm, hg⟩ := hg
    obtain ⟨b, n, hb, hne, hn⟩ := h.read
    obtain ⟨rfl, rfl⟩ : a = b ∧ m = n := by simpa [hm] using hb
    obtain ⟨h1, h2⟩ := ih hn hg
    exact ⟨fun hmem => (List.mem_cons.1 hmem).elim (fun e => hne e.symm) h1, h2⟩

/-! ### One slot -/

/-- With all its bytes there, a slot is read whole. -/
theorem readSlot_whole {k : Fin 4} {bs : List Byte} {acc : Word} {r r' : Source} (h : r.Gives (bs.map .byte) r') :
    readSlot k bs.length acc r = .whole (bs.foldl accum acc) r' := by
  induction bs generalizing acc r with
  | nil => cases h; rfl
  | cons b bs ih =>
    obtain ⟨m, hm, h⟩ := h
    simp only [List.length_cons, readSlot, hm, eos, List.foldl_cons]
    exact ih h

/-- An answer that is no byte, met before the slot is complete, stops the slot. -/
theorem readSlot_stopped {k : Fin 4} {bs : List Byte} {w : Nat} {acc : Word} {r r' : Source} {a : SrcAnswer} {why : Stop}
    (hw : bs.length < w) (ha : eos (.slotByte k) a = .stop why) (h : r.Gives (bs.map .byte ++ [a]) r') :
    readSlot k w acc r = .stopped why r' := by
  induction bs generalizing w acc r with
  | nil =>
    obtain ⟨m, hm, rfl⟩ := h
    obtain ⟨w, rfl⟩ : ∃ w', w = w' + 1 := ⟨w - 1, by simp at hw; omega⟩
    simp [readSlot, hm, ha]
  | cons b bs ih =>
    obtain ⟨m, hm, h⟩ := h
    obtain ⟨w, rfl⟩ : ∃ w', w = w' + 1 := ⟨w - 1, by simp at hw; omega⟩
    simp only [readSlot, hm, eos]
    exact ih (by simpa using hw) h

/-- A source that falls silent before the slot is complete leaves the slot without an answer. -/
theorem readSlot_silent {k : Fin 4} {bs : List Byte} {w : Nat} {acc : Word} {r m : Source} (hw : bs.length < w)
    (h : r.Gives (bs.map .byte) m) (hm : m.read = none) : readSlot k w acc r = .silent := by
  induction bs generalizing w acc r with
  | nil =>
    cases h
    obtain ⟨w, rfl⟩ : ∃ w', w = w' + 1 := ⟨w - 1, by simp at hw; omega⟩
    simp [readSlot, hm]
  | cons b bs ih =>
    obtain ⟨n, hn, h⟩ := h
    obtain ⟨w, rfl⟩ : ∃ w', w = w' + 1 := ⟨w - 1, by simp at hw; omega⟩
    simp only [readSlot, hn, eos]
    exact ih (by simpa using hw) h

/-- Everything reading a slot can do. -/
theorem readSlot_cases (k : Fin 4) (w : Nat) (acc : Word) (r : Source) :
    ((∃ as m, r.Gives as m ∧ m.read = none) ∧ readSlot k w acc r = .silent) ∨
    (∃ (bs : List Byte) (r' : Source), bs.length = w ∧ r.Gives (bs.map .byte) r' ∧ readSlot k w acc r = .whole (bs.foldl accum acc) r') ∨
    (∃ (bs : List Byte) (a : SrcAnswer) (why : Stop) (r' : Source), bs.length < w ∧ eos (.slotByte k) a = .stop why ∧ r.Gives (bs.map .byte ++ [a]) r' ∧
      readSlot k w acc r = .stopped why r') := by
  induction w generalizing acc r with
  | zero => exact .inr (.inl ⟨[], r, rfl, rfl, rfl⟩)
  | succ w ih =>
    cases hm : r.read with
    | none => exact .inl ⟨⟨[], r, rfl, hm⟩, by simp [readSlot, hm]⟩
    | some x =>
      obtain ⟨a, m⟩ := x
      cases ha : eos (.slotByte k) a with
      | stop why => exact .inr (.inr ⟨[], a, why, m, by simp, ha, ⟨m, hm, rfl⟩, by simp [readSlot, hm, ha]⟩)
      | data b =>
        obtain rfl : a = .byte b := by cases a <;> simp_all [eos]
        have e : readSlot k (w + 1) acc r = readSlot k w (accum acc b) m := by simp [readSlot, hm, ha]
        rw [e]
        rcases ih (accum acc b) m with ⟨⟨as, n, h1, h2⟩, h⟩ | ⟨bs, r', h1, h2, h3⟩ | ⟨bs, a, why, r', h1, h2, h3, h4⟩
        · exact .inl ⟨⟨.byte b :: as, n, ⟨m, hm, h1⟩, h2⟩, h⟩
        · exact .inr (.inl ⟨b :: bs, r', by simp [h1], ⟨m, hm, h2⟩, h3⟩)
        · exact .inr (.inr ⟨b :: bs, a, why, r', by simp [h1], h2, ⟨m, hm, h3⟩, h4⟩)

/-! ### The slots -/

/-- The registers after the slots `ks` are written from the bytes `b`. -/
def slotsFrom (b : Fin 4 → List Byte) (ks : List (Fin 4)) (buf : Quad) : Quad :=
  ks.foldl (fun q k => q.set k ((b k).foldl accum 0)) buf

/-- With all their bytes there, the slots `ks` are read and the reading goes on behind them. -/
theorem readSlots_append {c : Byte} {b : Fin 4 → List Byte} {ks ks' : List (Fin 4)} {buf : Quad} {r r' : Source}
    (hb : ∀ k ∈ ks, (b k).length = dwidth c k) (h : r.Gives ((ks.flatMap b).map .byte) r') :
    readSlots c (ks ++ ks') buf r = readSlots c ks' (slotsFrom b ks buf) r' := by
  induction ks generalizing buf r with
  | nil => cases h; rfl
  | cons k ks ih =>
    rw [List.flatMap_cons, List.map_append, Source.gives_append] at h
    obtain ⟨m, h1, h2⟩ := h
    have hk := readSlot_whole (k := k) (acc := 0) h1
    rw [hb k (by simp)] at hk
    simp only [List.cons_append, readSlots, hk]
    exact ih (fun j hj => hb j (by simp [hj])) h2

/-- Everything reading the slots `ks` can do: no answer; all of them whole; or a stop in one of them, with only the slots
before it written. -/
theorem readSlots_cases (c : Byte) (ks : List (Fin 4)) (buf : Quad) (r : Source) :
    ((∃ as m, r.Gives as m ∧ m.read = none) ∧ readSlots c ks buf r = .silent) ∨
    (∃ (buf' : Quad) (bs : List Byte) (r' : Source), bs.length ≤ 4 * ks.length ∧ r.Gives (bs.map .byte) r' ∧
      readSlots c ks buf r = .full buf' r') ∨
    (∃ (ks1 : List (Fin 4)) (k : Fin 4) (ks2 : List (Fin 4)) (buf' : Quad) (bs : List Byte) (a : SrcAnswer)
      (why : Stop) (r' : Source), ks = ks1 ++ k :: ks2 ∧ bs.length + 1 ≤ 4 * ks.length ∧
      r.Gives (bs.map .byte ++ [a]) r' ∧
      eos (.slotByte k) a = .stop why ∧ (∀ j, j ∉ ks1 → buf'.get j = buf.get j) ∧
      readSlots c ks buf r = .stopped why buf' r') := by
  induction ks generalizing buf r with
  | nil => exact .inr (.inl ⟨buf, [], r, by simp, rfl, rfl⟩)
  | cons k ks ih =>
    have hw : dwidth c k ≤ 4 := by
      have := (field c k).isLt
      unfold dwidth; omega
    rcases readSlot_cases k (dwidth c k) 0 r with ⟨hn, h⟩ | ⟨bs, m, hl, hg, h⟩ | ⟨bs, a, why, m, hl, ha, hg, h⟩
    · exact .inl ⟨hn, by simp only [readSlots, h]⟩
    · have e : readSlots c (k :: ks) buf r = readSlots c ks (buf.set k (bs.foldl accum 0)) m := by simp only [readSlots, h]
      rw [e]
      rcases ih (buf.set k (bs.foldl accum 0)) m with ⟨⟨as, n, h1, h2⟩, h'⟩ | ⟨buf', cs, r', h1, h2, h3⟩ |
        ⟨ks1, j, ks2, buf', cs, a, why, r', h1, h2, h3, h4, h5, h6⟩
      · exact .inl ⟨⟨_, n, Source.gives_append.2 ⟨m, hg, h1⟩, h2⟩, h'⟩
      · refine .inr (.inl ⟨buf', bs ++ cs, r', ?_, ?_, h3⟩)
        · simp; omega
        · rw [List.map_append]; exact Source.gives_append.2 ⟨m, hg, h2⟩
      · refine .inr (.inr ⟨k :: ks1, j, ks2, buf', bs ++ cs, a, why, r', by simp [h1], ?_, ?_, h4, ?_, h6⟩)
        · simp; omega
        · rw [List.map_append, List.append_assoc]; exact Source.gives_append.2 ⟨m, hg, h3⟩
        · intro i hi
          simp only [List.mem_cons, not_or] at hi
          rw [h5 i hi.2, Quad.get_set, if_neg hi.1]
    · refine .inr (.inr ⟨[], k, ks, buf, bs, a, why, m, rfl, ?_, hg, ha, fun _ _ => rfl, by simp only [readSlots, h]⟩)
      simp; omega

/-! ### READGROUP -/

/-- A group whose every byte is there is read whole. -/
theorem readGroup_full {d : Dec} {c : Byte} {b : Fin 4 → List Byte} {r r' : Source}
    (hb : ∀ k, (b k).length = dwidth c k) (h : r.Gives (.byte c :: (slotOrder.flatMap b).map .byte) r') :
    d.readGroup r = .group { d with buf := slotsFrom b slotOrder d.buf, avail := 4, rptr := 0 } r' := by
  obtain ⟨m, hm, h⟩ := h
  have := readSlots_append (ks' := []) (buf := d.buf) (fun k _ => hb k) h
  rw [List.append_nil] at this
  simp [Dec.readGroup, hm, eos, this, readSlots, Dec.conclude]

/-- With the bytes of the slots before `k` there, the reading goes on at slot `k`. -/
theorem readSlots_upTo {c : Byte} {b : Fin 4 → List Byte} {k : Fin 4} {buf : Quad} {r r' : Source}
    (hb : ∀ j, j < k → (b j).length = dwidth c j) (h : r.Gives (((slotOrder.take k.val).flatMap b).map .byte) r') :
    readSlots c slotOrder buf r =
      readSlots c (k :: slotOrder.drop (k.val + 1)) (slotsFrom b (slotOrder.take k.val) buf) r' := by
  have hmem : ∀ k : Fin 4, ∀ j ∈ slotOrder.take k.val, j < k := by decide
  have hsplit : ∀ k : Fin 4, slotOrder = slotOrder.take k.val ++ k :: slotOrder.drop (k.val + 1) := by decide
  have hs := readSlots_append (ks' := k :: slotOrder.drop (k.val + 1)) (buf := buf) (fun j hj => hb j (hmem k j hj)) h
  rwa [← hsplit k] at hs

/-- A stop in slot `k` ends the group read with the slots before it. -/
theorem readGroup_stopped {d : Dec} {c : Byte} {b : Fin 4 → List Byte} {k : Fin 4} {part : List Byte} {a : SrcAnswer}
    {why : Stop} {r r' : Source} (hb : ∀ j, j < k → (b j).length = dwidth c j) (hp : part.length < dwidth c k)
    (ha : eos (.slotByte k) a = .stop why)
    (h : r.Gives (.byte c :: (((slotOrder.take k.val).flatMap b ++ part).map .byte ++ [a])) r') :
    d.readGroup r = d.conclude (.stopped why (slotsFrom b (slotOrder.take k.val) d.buf) r') := by
  obtain ⟨m, hm, h⟩ := h
  rw [List.map_append, List.append_assoc, Source.gives_append] at h
  obtain ⟨n, h1, h2⟩ := h
  simp only [Dec.readGroup, hm, eos, readSlots_upTo hb h1, readSlots, readSlot_stopped hp ha h2]

/-- A source that falls silent in slot `k` leaves the group read without an answer. -/
theorem readGroup_silent {d : Dec} {c : Byte} {b : Fin 4 → List Byte} {k : Fin 4} {part : List Byte} {r m : Source}
    (hb : ∀ j, j < k → (b j).length = dwidth c j) (hp : part.length < dwidth c k)
    (h : r.Gives (.byte c :: ((slotOrder.take k.val).flatMap b ++ part).map .byte) m) (hm : m.read = none) :
    d.readGroup r = .silent := by
  obtain ⟨n, hn, h⟩ := h
  rw [List.map_append, Source.gives_append] at h
  obtain ⟨n', h1, h2⟩ := h
  simp only [Dec.readGroup, hn, eos, readSlots_upTo hb h1, readSlots, readSlot_silent hp h2 hm, Dec.conclude]

/-- A source that falls silent at the control byte leaves the group read without an answer. -/
theorem readGroup_silentAtControl {d : Dec} {r : Source} (h : r.read = none) : d.readGroup r = .silent := by
  simp [Dec.readGroup, h]

/-- A control byte's read that is no byte ends the group read at once. -/
theorem readGroup_atControl {d : Dec} {a : SrcAnswer} {why : Stop} {r r' : Source} (ha : eos .control a = .stop why)
    (h : r.Gives [a] r') : d.readGroup r = d.conclude (.stopped why d.buf r') := by
  obtain ⟨m, hm, rfl⟩ := h
  simp [Dec.readGroup, hm, ha]

/-- Everything READGROUP can do: no answer; a hard error; a clean end; a full group; a short group of `k` values with the
registers from `k` on as they were. In 1 to 17 reads, of which only the last can be something other than a byte. -/
theorem readGroup_cases (d : Dec) (r : Source) :
    ((∃ as m, r.Gives as m ∧ m.read = none) ∧ d.readGroup r = .silent) ∨
    ∃ (bs : List Byte) (a : SrcAnswer) (r' : Source), bs.length ≤ 16 ∧ r.Gives (bs.map .byte ++ [a]) r' ∧
      ((a = .err ∧ d.readGroup r = .hardError r') ∨
       (a = .eod ∧ d.readGroup r = .cleanEnd d.markFinished r') ∨
       ((∃ b, a = .byte b) ∧ ∃ buf, d.readGroup r = .group { d with buf := buf, avail := 4, rptr := 0 } r') ∨
       (a = .eod ∧ ∃ (k : Fin 4) (buf : Quad), (∀ j, k ≤ j → buf.get j = d.buf.get j) ∧
         d.readGroup r = .group { d with buf := buf, avail := k.castSucc, rptr := 0, finished := true } r')) := by
  cases hm : r.read with
  | none => exact .inl ⟨⟨[], r, rfl, hm⟩, by simp [Dec.readGroup, hm]⟩
  | some x =>
    obtain ⟨a, m⟩ := x
    have hg : r.Gives [a] m := ⟨m, hm, rfl⟩
    cases a with
    | eod => exact .inr ⟨[], _, m, by simp, hg, .inr (.inl ⟨rfl, readGroup_atControl rfl hg⟩)⟩
    | err => exact .inr ⟨[], _, m, by simp, hg, .inl ⟨rfl, readGroup_atControl rfl hg⟩⟩
    | byte c =>
      have e : d.readGroup r = d.conclude (readSlots c slotOrder d.buf m) := by simp [Dec.readGroup, hm, eos]
      have hs : slotOrder.length = 4 := rfl
      rw [e]
      rcases readSlots_cases c slotOrder d.buf m with ⟨⟨as, n, h1, h2⟩, h⟩ | ⟨buf, bs, r', h1, h2, h3⟩ |
        ⟨ks1, k, ks2, buf, bs, a, why, r', h1, h2, h3, h4, h5, h6⟩
      · exact .inl ⟨⟨.byte c :: as, n, ⟨m, hm, h1⟩, h2⟩, by rw [h]; rfl⟩
      · rw [h3]
        rcases List.eq_nil_or_concat bs with rfl | ⟨bs', b, rfl⟩
        · cases h2
          exact .inr ⟨[], .byte c, m, by simp, hg, .inr (.inr (.inl ⟨⟨c, rfl⟩, buf, rfl⟩))⟩
        · refine .inr ⟨c :: bs', .byte b, r', ?_, ⟨m, hm, by simpa using h2⟩, .inr (.inr (.inl ⟨⟨b, rfl⟩, buf, rfl⟩))⟩
          simp only [List.concat_eq_append, List.length_append, List.length_cons, List.length_nil] at h1 ⊢
          omega
      · rw [h6]
        refine .inr ⟨c :: bs, a, r', by rw [List.length_cons]; omega, ⟨m, hm, h3⟩, ?_⟩
        cases a with
        | byte b => simp [eos] at h4
        | err => cases h4; exact .inl ⟨rfl, rfl⟩
        | eod =>
          cases h4
          refine .inr (.inr (.inr ⟨rfl, k, buf, fun j hj => h5 j fun hmem => ?_, rfl⟩))
          have hsorted : List.Pairwise (· < ·) (ks1 ++ k :: ks2) := h1 ▸ by decide
          exact absurd ((List.pairwise_append.1 hsorted).2.2 j hmem k (by simp)) (not_lt.2 hj)

/-! ### GET -/

/-- Delivering the value at the read pointer, when there is one. -/
theorem State.deliver_ok {s : State} {k : Fin 4} (h : s.dec.rptr < s.dec.avail) (hk : s.dec.rptr = k.castSucc) :
    s.deliver = { s with
      dec := { s.dec with rptr := k.succ }
      responses := s.responses ++ [⟨.dec, .ok, s.dec.buf.get k⟩] } := by
  have e : (⟨s.dec.rptr.val, by omega⟩ : Fin 4) = k := by ext; simp [hk]
  simp only [State.deliver, dif_pos h, e]
  rfl

/-- With no value there, delivering answers EndOfData. -/
theorem State.deliver_none {s : State} (h : ¬ s.dec.rptr < s.dec.avail) : s.deliver = s.raise .endOfData := by
  simp [State.deliver, h]

/-- GET's own rule with a value buffered. -/
theorem getBody_buffered {s : State} (h : s.dec.rptr < s.dec.avail) : getBody s = .next s.deliver := by
  simp [getBody, h]

/-- GET's own rule when the source has ended. -/
theorem getBody_finished {s : State} (h : ¬ s.dec.rptr < s.dec.avail) (hf : s.dec.finished = true) :
    getBody s = .next (s.raise .endOfData) := by
  simp [getBody, h, hf]

/-- GET's own rule when a group must be read. -/
theorem getBody_reads {s : State} (h : ¬ s.dec.rptr < s.dec.avail) (hf : s.dec.finished = false) :
    getBody s = s.answerGroup (s.dec.readGroup s.source) := by
  simp [getBody, h, hf]

/-- Everything GET's own rule can do to a decoder that must read: no answer; a hard error; end-of-data with no value; or
the first of the values read, from a full group or one that end-of-data cut short. -/
theorem getBody_reads_cases {s : State} (h : ¬ s.dec.rptr < s.dec.avail) (hf : s.dec.finished = false)
    (hd : s.dec.fault = false) :
    ((∃ as m, s.source.Gives as m ∧ m.read = none) ∧ getBody s = .fault .sourceSilent) ∨
    ∃ (bs : List Byte) (a : SrcAnswer) (r : Source) (d : Dec) (n : Nat) (st : Status) (p : Word),
      bs.length ≤ 16 ∧ s.source.Gives (bs.map .byte ++ [a]) r ∧
      getBody s = .next { s with dec := d, source := r, responses := s.responses ++ [⟨.dec, st, p⟩], draws := n } ∧
      ((a = .err ∧ st = .ioerr ∧ d.fault = true) ∨
       (a = .eod ∧ st = .eod ∧ d = s.dec.markFinished) ∨
       ((∀ k : Fin 4, d.avail.val ≤ k.val → d.buf.get k = s.dec.buf.get k) ∧ d.fault = false ∧
         (((∃ b, a = .byte b) ∧ st = .ok ∧ d.rptr = 1 ∧ d.avail = 4 ∧ d.finished = false) ∨
          (a = .eod ∧ st = .ok ∧ d.rptr = 1 ∧ 1 ≤ d.avail ∧ d.finished = true) ∨
          (a = .eod ∧ st = .eod ∧ d.rptr = 0 ∧ d.avail = 0 ∧ d.finished = true)))) := by
  rw [getBody_reads h hf]
  rcases readGroup_cases s.dec s.source with
    ⟨hn, e⟩ | ⟨bs, a, r, hl, hg, ⟨ha, e⟩ | ⟨ha, e⟩ | ⟨ha, buf, e⟩ | ⟨ha, k, buf, hb, e⟩⟩
  · exact .inl ⟨hn, by rw [e]; rfl⟩
  · obtain ⟨d, p, hd', hs⟩ := (s.withSource r).raise_readError
    exact .inr ⟨bs, a, r, d, s.draws + 2, .ioerr, p, hl, hg, by rw [e]; exact congrArg _ hs, .inl ⟨ha, rfl, hd'⟩⟩
  · exact .inr ⟨bs, a, r, s.dec.markFinished, s.draws + 1, .eod, Config.respPayloadOnError s.draws, hl, hg,
      by rw [e]; rfl, .inr (.inl ⟨ha, rfl, rfl⟩)⟩
  · refine .inr ⟨bs, a, r, { s.dec with buf := buf, avail := 4, rptr := 1 }, s.draws, .ok, buf.get 0, hl, hg, ?_,
      .inr (.inr ⟨fun k hk => absurd hk (by have := k.isLt; simp), hd, .inl ⟨ha, rfl, rfl, rfl, hf⟩⟩)⟩
    rw [e]
    exact congrArg _ (State.deliver_ok (k := 0) (show (0 : Fin 5) < 4 by decide) rfl)
  · rcases Fin.eq_zero_or_eq_succ k with rfl | ⟨j, rfl⟩
    · refine .inr ⟨bs, a, r, { s.dec with buf := buf, avail := 0, rptr := 0, finished := true }, s.draws + 1, .eod,
        Config.respPayloadOnError s.draws, hl, hg, ?_,
        .inr (.inr ⟨fun k _ => hb k (Fin.zero_le _), hd, .inr (.inr ⟨ha, rfl, rfl, rfl, rfl⟩)⟩)⟩
      rw [e]
      exact congrArg _ (State.deliver_none (show ¬ (0 : Fin 5) < 0 by decide))
    · refine .inr ⟨bs, a, r, { s.dec with buf := buf, avail := j.succ.castSucc, rptr := 1, finished := true }, s.draws, .ok,
        buf.get 0, hl, hg, ?_,
        .inr (.inr ⟨fun k hk => hb k (Fin.le_def.2 hk), hd, .inr (.inl ⟨ha, rfl, rfl, ?_, rfl⟩)⟩)⟩
      · rw [e]
        exact congrArg _ (State.deliver_ok (k := 0) (Fin.lt_def.2 (Nat.succ_pos _)) rfl)
      · exact Fin.le_def.2 (Nat.succ_le_succ (Nat.zero_le _))

end Sys2Proof.Machine
end

