-- ==== Sys2Proof/Laws/Step.lean ====
section
/-! SUPPORT. What a step can do, said once: which event it takes, and when no unit has a step. -/

namespace Sys2Proof.Machine

@[simp] theorem waitOf_next (s : State) : waitOf (.next s) = none := rfl

@[simp] theorem waitOf_refused (r : Refusal) : waitOf (.refused r) = none := rfl

/-- A unit waits only by one of the two faults that say so. -/
theorem waitOf_some {r : Result} {f : Fault} (h : waitOf r = some f) : r = .fault f ∧ f.waits = true := by
  cases r with
  | next => cases h
  | refused => cases h
  | fault g =>
    simp only [waitOf] at h
    split at h
    · cases h; exact ⟨rfl, ‹_›⟩
    · cases h

/-- An event of a unit that is already held up is passed over. -/
theorem advance_pass {s : State} {held : List Event} {why : Option Fault} {e : Event} {es : List Event}
    (h : ∃ d ∈ held, d.unit = e.unit) : advance s held why (e :: es) = advance s (held ++ [e]) why es := by
  have : held.any (·.unit = e.unit) = true := by simpa using h
  simp only [advance, this, if_true]

/-- An event of a unit that is not held up is carried out, unless it waits. -/
theorem advance_take {s : State} {held : List Event} {why : Option Fault} {e : Event} {es : List Event}
    (h : ∀ d ∈ held, d.unit ≠ e.unit) (hw : waitOf (carryOut (s.withPending (held ++ es)) e) = none) :
    advance s held why (e :: es) = carryOut (s.withPending (held ++ es)) e := by
  have : ¬ held.any (·.unit = e.unit) = true := by simpa using h
  simp [advance, this, hw]

/-- An event whose unit waits is held up. -/
theorem advance_hold {s : State} {held : List Event} {why : Option Fault} {e : Event} {es : List Event} {f : Fault}
    (h : ∀ d ∈ held, d.unit ≠ e.unit) (hw : waitOf (carryOut (s.withPending (held ++ es)) e) = some f) :
    advance s held why (e :: es) = advance s (held ++ [e]) (why.or (some f)) es := by
  have : ¬ held.any (·.unit = e.unit) = true := by simpa using h
  simp [advance, this, hw]

/-- Events of one held-up unit are passed over together. -/
theorem advance_pass_all {s : State} {held : List Event} {why : Option Fault} {d : Event} (hs es : List Event)
    (hd : d ∈ held) (h : ∀ e ∈ hs, e.unit = d.unit) :
    advance s held why (hs ++ es) = advance s (held ++ hs) why es := by
  induction hs generalizing held with
  | nil => simp
  | cons e hs ih =>
    rw [List.cons_append, advance_pass ⟨d, hd, (h e (by simp)).symm⟩,
      ih (by simp [hd]) fun x hx => h x (by simp [hx]), List.append_assoc, List.singleton_append]

/-- Everything `advance` can do: nothing is left and nothing waits; it ends in a wait; or one event is carried out, with
that event alone taken. -/
theorem advance_cases (s : State) (held : List Event) (why : Option Fault) (rest : List Event)
    (hn : why = none → held = []) (hy : ∀ f, why = some f → f.waits = true) :
    (why = none ∧ rest = [] ∧ advance s held why rest = .next s) ∨
    (∃ f, f.waits = true ∧ advance s held why rest = .fault f) ∨
    ∃ (pre : List Event) (e : Event) (es : List Event), rest = pre ++ e :: es ∧
      waitOf (carryOut (s.withPending (held ++ pre ++ es)) e) = none ∧
      advance s held why rest = carryOut (s.withPending (held ++ pre ++ es)) e := by
  induction rest generalizing held why with
  | nil =>
    cases why with
    | none => exact .inl ⟨rfl, rfl, rfl⟩
    | some f => exact .inr (.inl ⟨f, hy f rfl, rfl⟩)
  | cons e es ih =>
    have go : ∀ f, f.waits = true → advance s held why (e :: es) = advance s (held ++ [e]) (some f) es →
        (why = none ∧ e :: es = [] ∧ advance s held why (e :: es) = .next s) ∨
        (∃ f, f.waits = true ∧ advance s held why (e :: es) = .fault f) ∨
        ∃ (pre : List Event) (x : Event) (xs : List Event), e :: es = pre ++ x :: xs ∧
          waitOf (carryOut (s.withPending (held ++ pre ++ xs)) x) = none ∧
          advance s held why (e :: es) = carryOut (s.withPending (held ++ pre ++ xs)) x := fun f hf heq => by
      rcases ih (held ++ [e]) (some f) (by simp) (fun g hg => by cases hg; exact hf) with
        ⟨h, -⟩ | ⟨g, hg, h⟩ | ⟨pre, x, xs, h1, h2, h3⟩
      · cases h
      · exact .inr (.inl ⟨g, hg, heq.trans h⟩)
      · rw [List.append_assoc held, List.singleton_append] at h2 h3
        exact .inr (.inr ⟨e :: pre, x, xs, by rw [h1]; rfl, h2, heq.trans h3⟩)
    by_cases hd : ∃ d ∈ held, d.unit = e.unit
    · cases why with
      | none => rw [hn rfl] at hd; simp at hd
      | some f => exact go f (hy f rfl) (advance_pass hd)
    · have hd' : ∀ d ∈ held, d.unit ≠ e.unit := by simpa using hd
      cases hw : waitOf (carryOut (s.withPending (held ++ es)) e) with
      | none => exact .inr (.inr ⟨[], e, es, rfl, by simpa using hw, by simpa using advance_take hd' hw⟩)
      | some f =>
        cases why with
        | none => exact go f (waitOf_some hw).2 (advance_hold hd' hw)
        | some g => exact go g (hy g rfl) (advance_hold hd' hw)

/-- Everything a step can do: nothing was sent; every unit that was sent something waits; or one event is carried out,
with that event alone taken. -/
theorem step_cases (s : State) :
    (s.pending = [] ∧ step s = .next s) ∨ (∃ f, f.waits = true ∧ step s = .fault f) ∨
    ∃ (held : List Event) (e : Event) (es : List Event), s.pending = held ++ e :: es ∧
      waitOf (carryOut (s.withPending (held ++ es)) e) = none ∧ step s = carryOut (s.withPending (held ++ es)) e := by
  rcases advance_cases s [] none s.pending (fun _ => rfl) (by simp) with ⟨-, h⟩ | h | h
  · exact .inl h
  · exact .inr (.inl h)
  · exact .inr (.inr h)

/-- The oldest event is carried out, unless its unit waits. -/
theorem step_oldest {s : State} {e : Event} {es : List Event} (h : s.pending = e :: es)
    (hw : waitOf (carryOut (s.withPending es) e) = none) : step s = carryOut (s.withPending es) e := by
  unfold step
  rw [h]
  exact advance_take (held := []) (by simp) hw

/-- A step that answers a next state carried one event out, or nothing was sent. -/
theorem step_next {s t : State} (h : step s = .next t) :
    (s.pending = [] ∧ t = s) ∨ ∃ (held : List Event) (e : Event) (es : List Event), s.pending = held ++ e :: es ∧
      carryOut (s.withPending (held ++ es)) e = .next t := by
  rcases step_cases s with ⟨hp, hs⟩ | ⟨f, -, hs⟩ | ⟨held, e, es, hp, -, hs⟩ <;> rw [hs] at h
  · cases h; exact .inl ⟨hp, rfl⟩
  · cases h
  · exact .inr ⟨held, e, es, hp, h⟩

end Sys2Proof.Machine
end

