-- ==== Sys2Proof/Tests/Slice0.lean ====
section
/-! SUPPORT. Small tests, their expected results from 95_test_vectors, and for each statement with hypotheses a witness
that meets them. -/

namespace Sys2Proof.Tests

open Sys2Proof Sys2Proof.Machine

/-! ## Helpers -/

/-- GVENC with these slots and this many of them pending, as a command on its port finds it. -/
def encAt (a b c : Word) (n : Fin 5) : State :=
  { State.reset with enc := { slot := ⟨a, b, c, 0⟩, count := n, fault := false } }

/-- GVENC after a failed write. -/
def encFaulted : State := { State.reset with enc := { Enc.reset with fault := true } }

/-- The same state with a sink that fails every write. -/
def withFailingSink (s : State) : State := { s with sink := { s.sink with after := .fail } }

/-- The same state with a sink that never answers. -/
def withSilentSink (s : State) : State := { s with sink := { s.sink with after := .silent } }

/-- GVDEC after reset on these bytes and end-of-data, its port addressed. -/
def decOn (bs : List Byte) : State := { State.reset with source := Source.ofBytes bs, port := .dec }

/-- GVDEC after reset on these bytes and then `Err` for ever. -/
def decErr (bs : List Byte) : State :=
  { State.reset with source := { answers := bs.map .byte, after := .err, reads := 0 }, port := .dec }

/-- GVDEC after reset on a source that never answers. -/
def decSilent : State := { State.reset with source := { answers := [], after := .silent, reads := 0 }, port := .dec }

/-- GVDEC with these values available and this pointer. -/
def decAt (a b : Word) (avail rptr : Fin 5) (finished : Bool) : State :=
  { State.reset with
    dec := { buf := ⟨a, b, 0, 0⟩, avail := avail, rptr := rptr, finished := finished, fault := false }
    port := .dec }

/-- GVDEC after a failed read. -/
def decFaulted : State := { State.reset with dec := { Dec.reset with fault := true }, port := .dec }

/-- A decoder in NeedGroup on a source that gives `bs` and then never answers. -/
def decMute (bs : List Byte) : State :=
  { State.reset with source := { answers := bs.map .byte, after := .silent, reads := 0 }, port := .dec }

theorem decMute_gives (bs : List Byte) : (decMute bs).source.Gives (bs.map .byte) ⟨[], .silent, bs.length⟩ := by
  have h := Source.gives_listed (bs.map .byte) [] .silent 0
  rwa [List.append_nil, List.length_map, Nat.zero_add] at h

/-- The bytes GVDEC's source gives before end-of-data. -/
theorem decOn_gives (bs : List Byte) : (decOn bs).source.Gives (bs.map .byte) ⟨[], .eod, bs.length⟩ := by
  have h := Source.gives_listed (bs.map .byte) [] .eod 0
  rwa [List.append_nil, List.length_map, Nat.zero_add] at h

/-- GVENC's count and fault flag, as the vectors write its state. -/
def encState : Result → Option (Fin 5 × Bool)
  | .next s => some (s.enc.count, s.enc.fault)
  | _ => none

/-- GVDEC's available count, pointer, mark and fault flag. -/
def decState : Result → Option (Fin 5 × Fin 5 × Bool × Bool)
  | .next s => some (s.dec.avail, s.dec.rptr, s.dec.finished, s.dec.fault)
  | _ => none

/-- The last status sent. -/
def status : Result → Option Status
  | .next s => s.responses.getLast?.map (·.status)
  | _ => none

/-- The payload of the last response, if its status is OK. -/
def okPayload : Result → Option Word
  | .next s => s.responses.getLast?.bind fun r => if r.status = .ok then some r.payload else none
  | _ => none

/-- The sink's contents. -/
def sink : Result → Option (List Byte)
  | .next s => some s.sink.contents
  | _ => none

/-- How many reads the source has been given. -/
def reads : Result → Option Nat
  | .next s => some s.source.reads
  | _ => none

/-! ## Well-formedness: an ill-formed term for each check -/

theorem test_width0_zero : (Instr.groupControlByte 0 1 1 1).wellFormed = false := by decide
theorem test_width0_five : (Instr.groupControlByte 5 1 1 1).wellFormed = false := by decide
theorem test_width1_zero : (Instr.groupControlByte 1 0 1 1).wellFormed = false := by decide
theorem test_width2_five : (Instr.groupControlByte 1 1 5 1).wellFormed = false := by decide
theorem test_width3_zero : (Instr.groupControlByte 1 1 1 0).wellFormed = false := by decide
theorem test_widths_legal : (Instr.groupControlByte 4 1 2 3).wellFormed = true := by decide

/-! ## Decoding: words written out from R48, R49, R42, R52, and refusals -/

-- P1 command 3, PUT 70000; V4.10; R49's map.
theorem test_decode_put : decode 35 0b000_00000000000000010001000101110000 = .ok (.put 70000) := by decide
theorem test_decode_flush : decode 35 0x1DEADBEEF = .ok .flush := by decide
theorem test_decode_close : decode 35 0b010_00000000000000000000000000000000 = .ok .close := by decide
theorem test_decode_get : decode 35 0b100_00000000000000000000000000000000 = .ok .get := by decide
theorem test_decode_reserved011 : decode 35 0x300000000 = .ok .reserved011 := by decide
theorem test_decode_reserved101 : decode 35 0x500000000 = .ok .reserved101 := by decide
theorem test_decode_reserved110 : decode 35 0x6FFFFFFFF = .ok .reserved110 := by decide
theorem test_decode_reserved111 : decode 35 0x700000000 = .ok .reserved111 := by decide
-- V2's four single-slot lines.
theorem test_decode_control :
    decode 8 0xC0 = .ok (.groupControlByte 4 1 1 1) ∧ decode 8 0x30 = .ok (.groupControlByte 1 4 1 1) ∧
    decode 8 0x0C = .ok (.groupControlByte 1 1 4 1) ∧ decode 8 0x03 = .ok (.groupControlByte 1 1 1 4) := by decide
-- P1's response words, P2's EOD, P5's IOERR and REFUSED.
theorem test_decode_response :
    decode 34 0x00000012C = .ok (.response .ok 300) ∧ decode 34 0x100000000 = .ok (.response .eod 0) ∧
    decode 34 0x200000000 = .ok (.response .ioerr 0) ∧ decode 34 0x300000000 = .ok (.response .refused 0) := by decide
theorem test_decode_length : decode 33 0 = .error .unknownLength := by decide
theorem test_decode_above : decode 35 0x800000000 = .error .bitsAbove := by decide
-- P1 responses 2 and 7 as words.
theorem test_response_word : (Response.mk .dec .ok 300).word = 0x00000012C#34 := by decide

/-! ## Datapath: V1 and V3 -/

theorem test_width :
    width 0xFF = 1 ∧ width 0x100 = 2 ∧ width 0xFFFF = 2 ∧ width 0x10000 = 3 ∧ width 0xFFFFFF = 3 ∧
    width 0x01000000 = 4 ∧ width 0x80000000 = 4 := by decide
theorem test_group_bytes :
    groupBytes 0xAABBCCDD 0xBBCCDD 0xCCDD 0xDD =
      [0xE4, 0xAA, 0xBB, 0xCC, 0xDD, 0xBB, 0xCC, 0xDD, 0xCC, 0xDD, 0xDD] := by decide
theorem test_trunc : trunc (groupBytes 300 0 0 0) 1 = [0x40, 0x01, 0x2C] := by decide
theorem test_lanes : lanes [0x01, 0x11, 0x70] = 70000 := by decide

/-! ## One step of each instruction -/

-- V4.2.
theorem test_put_appends : encState (exec (.put 7) State.reset) = some (1, false) := by decide
-- P1 command 4.
theorem test_put_fourth :
    sink (exec (.put 0) (encAt 1 300 70000 3)) = some [0x18, 0x01, 0x01, 0x2C, 0x01, 0x11, 0x70, 0x00] ∧
    okPayload (exec (.put 0) (encAt 1 300 70000 3)) = some 8 := by decide
-- V4.4: a pending 0 is written.
theorem test_flush_zero : sink (exec .flush (encAt 0 0 0 1)) = some [0x00, 0x00] := by decide
-- V4.1.
theorem test_flush_nothing : okPayload (exec .flush State.reset) = some 0 ∧ sink (exec .flush State.reset) = some [] := by
  decide
-- P2 command 3.
theorem test_close_partial :
    sink (exec .close (encAt 5 6 0 2)) = some [0x00, 0x05, 0x06] ∧ okPayload (exec .close (encAt 5 6 0 2)) = some 3 := by
  decide
-- V4.5, its second close.
theorem test_close_again : okPayload (exec .close State.reset) = some 0 := by decide
-- V6.2, first GET.
theorem test_get_full :
    okPayload (exec .get (decOn [0x18, 0x01, 0x01, 0x2C, 0x01, 0x11, 0x70, 0x00])) = some 1 ∧
    decState (exec .get (decOn [0x18, 0x01, 0x01, 0x2C, 0x01, 0x11, 0x70, 0x00])) = some (4, 1, false, false) ∧
    reads (exec .get (decOn [0x18, 0x01, 0x01, 0x2C, 0x01, 0x11, 0x70, 0x00])) = some 8 := by decide
-- V6.8: cut inside slot 0.
theorem test_get_cut :
    status (exec .get (decOn [0xC0, 0x01, 0x02])) = some .eod ∧
    decState (exec .get (decOn [0xC0, 0x01, 0x02])) = some (0, 0, true, false) ∧
    reads (exec .get (decOn [0xC0, 0x01, 0x02])) = some 4 := by decide
-- V4.9, V6.15: refused, the unit not faulted.
theorem test_reserved011 :
    status (exec .reserved011 State.reset) = some .refused ∧ encState (exec .reserved011 State.reset) = some (0, false) := by
  decide
theorem test_reserved101 : status (exec .reserved101 (decOn [])) = some .refused := by decide
theorem test_reserved110 : status (exec .reserved110 (decOn [])) = some .refused := by decide
theorem test_reserved111 :
    status (exec .reserved111 (decOn [])) = some .refused ∧ reads (exec .reserved111 (decOn [])) = some 0 := by decide
-- V6.9 with its control byte 10 met on its own (log 12).
theorem test_control_byte :
    okPayload (exec (.groupControlByte 1 2 1 1) (decOn [0x07, 0x0A])) = some 7 ∧
    decState (exec (.groupControlByte 1 2 1 1) (decOn [0x07, 0x0A])) = some (1, 1, true, false) := by decide
theorem test_control_byte_ill_formed : exec (.groupControlByte 0 1 1 1) State.reset = .refused .illFormed := rfl
-- P1 response 2 (log 13).
theorem test_response : okPayload (exec (.response .ok 300) State.reset) = some 300 := by decide
-- The host's placing of a word, on each of the table's three formats.
theorem test_fetch_get : status (step (State.reset.withFetchWord 35 0x400000000)) = some .eod := by decide
theorem test_fetch_put : encState (step (State.reset.withFetchWord 40 0x00000012C)) = some (1, false) := by decide
theorem test_fetch_control :
    step (State.reset.withFetchWord 8 0x18) = exec (.groupControlByte 1 2 3 1) { State.reset with port := .dec } := rfl
-- R108: a silent sink stops GVENC, and GVDEC's GET behind it is carried out; alone, nothing has a step.
theorem test_wait_other :
    okPayload (step { decOn [0x00, 0x05] with
      enc := (encAt 5 6 0 2).enc, sink := (withSilentSink State.reset).sink,
      pending := [.command .enc 0x100000000#35, .command .enc 0x000000007#35, .command .dec 0x400000000#35] }) = some 5 := by
  decide
theorem test_wait_alone :
    step { withSilentSink (encAt 5 6 0 2) with pending := [.command .enc 0x100000000#35] } = .fault .sinkSilent := rfl
theorem test_idle : step State.reset = .next State.reset := rfl

/-! ## Witnesses: for each statement, a state and operands that meet its hypotheses, at the ends of their ranges -/

theorem witness_DecodeInvertsEncode :
    (Instr.groupControlByte 1 1 1 1).wellFormed = true ∧ (Instr.groupControlByte 4 4 4 4).wellFormed = true ∧
    (Instr.put 0xFFFFFFFF).wellFormed = true := by decide

theorem witness_CommandWordsFollowTheOpcodeMap :
    (0x012345678#35).extractLsb' 32 3 = 0b000#3 ∧ (0x1DEADBEEF#35).extractLsb' 32 3 = 0b001#3 ∧
    (0x200000000#35).extractLsb' 32 3 = 0b010#3 ∧ (0x300000000#35).extractLsb' 32 3 = 0b011#3 ∧
    (0x400000000#35).extractLsb' 32 3 = 0b100#3 ∧ (0x5FFFFFFFF#35).extractLsb' 32 3 = 0b101#3 ∧
    (0x600000000#35).extractLsb' 32 3 = 0b110#3 ∧ (0x7FFFFFFFF#35).extractLsb' 32 3 = 0b111#3 := by decide

theorem witness_ResponseWordLayout :
    (0x0FFFFFFFF#34).extractLsb' 32 2 = 0b00#2 ∧ (0x100000000#34).extractLsb' 32 2 = 0b01#2 ∧
    (0x2FFFFFFFF#34).extractLsb' 32 2 = 0b10#2 ∧ (0x300000000#34).extractLsb' 32 2 = 0b11#2 := by decide

theorem witness_WidthIsLeast :
    (0 : Word).toNat < 2 ^ (8 * 1) ∧ (0xFF : Word).toNat < 2 ^ (8 * 1) ∧ (0xFFFFFFFF : Word).toNat < 2 ^ (8 * 4) := by
  decide

theorem witness_PackPlacesTheFields : widthLegal 1 = true ∧ widthLegal 4 = true := by decide

theorem witness_DwidthInvertsPack : widthLegal 2 = true ∧ widthLegal 3 = true := by decide

theorem witness_MarshalBytes : 0 < 1 ∧ 3 < 4 ∧ 1 < width 0x100 := by decide

theorem witness_AccumulatorIsBigEndian :
    ([] : List Byte).length ≤ 4 ∧ ([0xFF, 0xFF, 0xFF, 0xFF] : List Byte).length ≤ 4 ∧
    (0xFF : Word).toNat < 2 ^ (8 * 1) ∧ (0xFFFFFFFF : Word).toNat < 2 ^ (8 * 4) := by decide

theorem witness_LanesEqualAccumulator :
    ([0x01, 0x02, 0x03, 0x04] : List Byte).length ≤ 4 ∧ 3 < ([0x01, 0x02, 0x03, 0x04] : List Byte).length ∧
    ([0x01, 0x02, 0x03] : List Byte).length ≤ 3 := by decide

theorem witness_TruncationRemovesOnlyPadding : (encAt 5 0 0 1).enc.count ≠ 0 ∧ (encAt 1 2 3 4).enc.count ≠ 0 := by decide

theorem witness_PutAppends :
    State.reset.EncReady ∧ State.reset.enc.count.val < 3 ∧ (encAt 1 2 0 2).EncReady ∧ (encAt 1 2 0 2).enc.count.val < 3 := by
  decide

theorem witness_FourthPutWritesTheGroup :
    (encAt 1 2 3 3).EncReady ∧ (encAt 1 2 3 3).enc.count.val = 3 ∧ ∃ k, (encAt 1 2 3 3).sink.answer = some (.ok, k) :=
  ⟨by decide, rfl, _, rfl⟩

theorem witness_FlushAndCloseWriteWhatIsPending :
    (encAt 5 0 0 1).EncReady ∧ (encAt 5 0 0 1).enc.count ≠ 0 ∧ (encAt 1 2 3 3).enc.count ≠ 0 ∧
    (∃ k, (encAt 5 0 0 1).sink.answer = some (.ok, k)) ∧ ∃ k, (encAt 1 2 3 3).sink.answer = some (.ok, k) :=
  ⟨by decide, by decide, by decide, ⟨_, rfl⟩, _, rfl⟩

theorem witness_FlushAndCloseOfNothing : State.reset.EncReady ∧ State.reset.enc.count = 0 := by decide

/-- A FLUSH or CLOSE with one value pending, and a fourth PUT, each before a sink that fails. -/
theorem witness_WriteErrorLatchesTheFault :
    ((withFailingSink (encAt 9 0 0 1)).EncReady ∧ (withFailingSink (encAt 9 0 0 1)).enc.count ≠ 0 ∧
      ∃ k, (withFailingSink (encAt 9 0 0 1)).sink.answer = some (.fail, k)) ∧
    ((withFailingSink (encAt 1 2 3 3)).EncReady ∧ (withFailingSink (encAt 1 2 3 3)).enc.count.val = 3 ∧
      ∃ k, (withFailingSink (encAt 1 2 3 3)).sink.answer = some (.fail, k)) :=
  ⟨⟨by decide, by decide, _, rfl⟩, by decide, rfl, _, rfl⟩

theorem witness_FaultedUnitRefusesEveryCommand :
    encFaulted.faultOf encFaulted.port = true ∧ decFaulted.faultOf decFaulted.port = true := by decide

/-- The four reserved opcodes, GET on GVENC's port, and PUT, FLUSH and CLOSE on GVDEC's. -/
theorem witness_ReservedAndForeignWordsAreRefused :
    (0x300000000#35).extractLsb' 32 3 = 0b011#3 ∧ (0x5FFFFFFFF#35).extractLsb' 32 3 = 0b101#3 ∧
    (0x600000000#35).extractLsb' 32 3 = 0b110#3 ∧ (0x700000000#35).extractLsb' 32 3 = 0b111#3 ∧
    (State.reset.port = .enc ∧ (0x400000000#35).extractLsb' 32 3 = 0b100#3) ∧ (decOn []).port = .dec ∧
    (0x000000005#35).extractLsb' 32 3 = 0b000#3 ∧ (0x100000000#35).extractLsb' 32 3 = 0b001#3 ∧
    (0x200000000#35).extractLsb' 32 3 = 0b010#3 := by decide

theorem witness_ReservedCommandsAreRefused :
    ∀ i ∈ [Instr.reserved011, .reserved101, .reserved110, .reserved111],
      i = .reserved011 ∨ i = .reserved101 ∨ i = .reserved110 ∨ i = .reserved111 := by decide

/-- The sink; then a source that falls silent at the control byte, before slot 0, in slot 0 (V6.8's bytes), at the last
byte of slot 3; then one that does so behind a control byte sent alone. -/
theorem witness_SilentStreamsHang :
    ((withSilentSink (encAt 1 2 3 3)).EncReady ∧ (withSilentSink (encAt 1 2 3 3)).sink.answer = none ∧
      (withSilentSink (encAt 1 2 3 3)).enc.count.val = 3) ∧
    ((withSilentSink (encAt 5 0 0 1)).EncReady ∧ (withSilentSink (encAt 5 0 0 1)).sink.answer = none ∧
      (withSilentSink (encAt 5 0 0 1)).enc.count ≠ 0) ∧
    ((decMute []).port = .dec ∧ (decMute []).dec.NeedGroup ∧ (decMute []).source.read = none) ∧
    (([] : List Byte).length < dwidth 0xC0 0 ∧
      ∃ m : Source, (decMute [0xC0]).source.Gives [.byte 0xC0] m ∧ m.read = none) ∧
    (([0x01, 0x02] : List Byte).length < dwidth 0xC0 0 ∧
      ∃ m : Source, (decMute [0xC0, 0x01, 0x02]).source.Gives [.byte 0xC0, .byte 0x01, .byte 0x02] m ∧ m.read = none) ∧
    ((∀ j : Fin 4, j < 3 → (List.replicate 4 (0xFF : Byte)).length = dwidth 0xFF j) ∧
      (List.replicate 3 (0xFF : Byte)).length < dwidth 0xFF 3 ∧
      ∃ m : Source, (decMute (List.replicate 16 0xFF)).source.Gives (List.replicate 16 (.byte 0xFF)) m ∧ m.read = none) ∧
    widthLegal 4 = true ∧ widthLegal 1 = true ∧ ([0x01, 0x02] : List Byte).length < dwidth (pack 4 1 1 1) 0 ∧
    ∃ m : Source, (decMute [0x01, 0x02]).source.Gives [.byte 0x01, .byte 0x02] m ∧ m.read = none :=
  ⟨⟨by decide, rfl, rfl⟩, ⟨by decide, rfl, by decide⟩, ⟨rfl, by decide, rfl⟩,
    ⟨by decide, _, decMute_gives [0xC0], rfl⟩, ⟨by decide, _, decMute_gives [0xC0, 0x01, 0x02], rfl⟩,
    ⟨by decide, by decide, _, decMute_gives (List.replicate 16 0xFF), rfl⟩, by decide, by decide, by decide,
    _, decMute_gives [0x01, 0x02], rfl⟩

/-- Silence inside slot 1, with slot 0 complete, is no short group. -/
theorem test_silent_in_slot : exec .get (decMute [0x10, 0x07, 0x0A]) = .fault .sourceSilent := rfl

/-- The first of two values, and the last of four. -/
theorem witness_GetDeliversBuffered :
    ((decAt 5 6 2 0 true).port = .dec ∧ (decAt 5 6 2 0 true).dec.HasBuffered ∧
      (decAt 5 6 2 0 true).dec.rptr = (0 : Fin 4).castSucc) ∧
    (decAt 5 6 4 3 false).dec.HasBuffered ∧ (decAt 5 6 4 3 false).dec.rptr = (3 : Fin 4).castSucc := by decide

theorem witness_GetExhausted :
    ((decAt 0 0 0 0 true).port = .dec ∧ (decAt 0 0 0 0 true).dec.Exhausted) ∧ (decAt 5 6 4 4 true).dec.Exhausted := by
  decide

/-- The shortest group of four and the longest. -/
theorem witness_GetReadsFullGroup :
    (decOn [0x00, 1, 2, 3, 4]).port = .dec ∧ (decOn [0x00, 1, 2, 3, 4]).dec.NeedGroup ∧
    (∀ k : Fin 4, ([BitVec.ofNat 8 (k.val + 1)] : List Byte).length = dwidth 0x00 k) ∧
    (∃ r : Source, (decOn [0x00, 1, 2, 3, 4]).source.Gives
      (.byte 0x00 :: (slotOrder.flatMap fun k => ([BitVec.ofNat 8 (k.val + 1)] : List Byte)).map .byte) r) ∧
    (∀ k : Fin 4, (List.replicate 4 (0xFF : Byte)).length = dwidth 0xFF k) ∧
    ∃ r : Source, (decOn (List.replicate 17 0xFF)).source.Gives
      (.byte 0xFF :: (slotOrder.flatMap fun _ => List.replicate 4 (0xFF : Byte)).map .byte) r :=
  ⟨rfl, by decide, by decide, ⟨_, decOn_gives [0x00, 1, 2, 3, 4]⟩, by decide, _, decOn_gives (List.replicate 17 0xFF)⟩

/-- V6.8: cut in slot 0 after two of its four bytes. V6.9: cut in slot 1. V6.5: cut before slot 3. -/
theorem witness_GetReadsShortGroup :
    ((decOn [0xC0, 0x01, 0x02]).port = .dec ∧ (decOn [0xC0, 0x01, 0x02]).dec.NeedGroup ∧
      ([0x01, 0x02] : List Byte).length < dwidth 0xC0 0 ∧
      ∃ r : Source, (decOn [0xC0, 0x01, 0x02]).source.Gives [.byte 0xC0, .byte 0x01, .byte 0x02, .eod] r) ∧
    (([0x07] : List Byte).length = dwidth 0x10 0 ∧ ([0x0A] : List Byte).length < dwidth 0x10 1 ∧
      ∃ r : Source, (decOn [0x10, 0x07, 0x0A]).source.Gives [.byte 0x10, .byte 0x07, .byte 0x0A, .eod] r) ∧
    (∀ j : Fin 4, j < 3 → ([BitVec.ofNat 8 (j.val + 1)] : List Byte).length = dwidth 0x00 j) ∧
    ([] : List Byte).length < dwidth 0x00 3 ∧
    ∃ r : Source, (decOn [0x00, 1, 2, 3]).source.Gives [.byte 0x00, .byte 1, .byte 2, .byte 3, .eod] r :=
  ⟨⟨rfl, by decide, by decide, _, Source.ofBytes_gives [0xC0, 0x01, 0x02]⟩,
    ⟨by decide, by decide, _, Source.ofBytes_gives [0x10, 0x07, 0x0A]⟩, by decide, by decide,
    _, Source.ofBytes_gives [0x00, 1, 2, 3]⟩

theorem witness_GetMeetsCleanEnd :
    (decOn []).port = .dec ∧ (decOn []).dec.NeedGroup ∧ ∃ r : Source, (decOn []).source.Gives [.eod] r :=
  ⟨rfl, by decide, _, Source.ofBytes_gives []⟩

/-- V6.12: `Err` on the control byte. V6.13: `Err` in slot 2, with slots 0 and 1 complete. -/
theorem witness_ReadErrorLatchesTheFault :
    ((decErr []).port = .dec ∧ (decErr []).dec.NeedGroup ∧ ∃ r : Source, (decErr []).source.Gives [.err] r) ∧
    (∀ j : Fin 4, j < 2 → ([BitVec.ofNat 8 (j.val + 5)] : List Byte).length = dwidth 0x00 j) ∧
    ([] : List Byte).length < dwidth 0x00 2 ∧
    ∃ r : Source, (decErr [0x00, 0x05, 0x06]).source.Gives [.byte 0x00, .byte 0x05, .byte 0x06, .err] r :=
  ⟨⟨rfl, by decide, _, _, rfl, rfl⟩, by decide, by decide, _, _, rfl, _, rfl, _, rfl, _, rfl, rfl⟩

theorem witness_EveryStreamDecodes : (decOn [0x0F, 0x01, 0x02]).DecReady ∧ (decOn [0x0F, 0x01, 0x02]).source.Honest := by
  decide

/-- A GET that reads, and one that delivers a buffered value. -/
theorem witness_GetReadCount :
    ((∃ t, exec .get (decOn [0x00, 0x05]) = .next t) ∧ (decOn [0x00, 0x05]).DecReady ∧
      ¬ (decOn [0x00, 0x05]).dec.rptr < (decOn [0x00, 0x05]).dec.avail ∧ (decOn [0x00, 0x05]).dec.finished = false) ∧
    (∃ t, exec .get (decAt 5 6 2 1 true) = .next t) ∧ (decAt 5 6 2 1 true).dec.rptr < (decAt 5 6 2 1 true).dec.avail :=
  ⟨⟨⟨_, rfl⟩, by decide, by decide, rfl⟩, ⟨_, rfl⟩, by decide⟩

theorem witness_EndOfDataIsFinal :
    (decAt 5 6 2 2 true).dec.fault = false ∧ (decAt 5 6 2 2 true).dec.finished = true ∧
    (∃ t, exec .get (decAt 5 6 2 2 true) = .next t) ∧ ∃ t, exec (.groupControlByte 1 1 1 1) (decAt 5 6 2 2 true) = .next t :=
  ⟨rfl, rfl, ⟨_, rfl⟩, _, rfl⟩

/-- Widths 1 and widths 4. -/
theorem witness_ControlByteReadsItsGroup :
    (widthLegal 1 = true ∧ ([0x05] : List Byte).length = 1 ∧ (decOn [5, 6, 7, 8]).dec.NeedGroup ∧
      ∃ r : Source, (decOn [5, 6, 7, 8]).source.Gives
        ((([0x05] : List Byte) ++ [0x06] ++ [0x07] ++ [0x08]).map .byte) r) ∧
    widthLegal 4 = true ∧ (List.replicate 4 (0xFF : Byte)).length = 4 ∧
    ∃ r : Source, (decOn (List.replicate 16 0xFF)).source.Gives
      ((List.replicate 4 (0xFF : Byte) ++ List.replicate 4 0xFF ++ List.replicate 4 0xFF ++ List.replicate 4 0xFF).map .byte) r :=
  ⟨⟨by decide, rfl, by decide, _, decOn_gives [5, 6, 7, 8]⟩, by decide, rfl, _, decOn_gives (List.replicate 16 0xFF)⟩

/-- An append, a fourth value, and a refusal. -/
theorem witness_PutFrame :
    (∃ t, exec (.put 7) State.reset = .next t ∧ t.enc.fault = State.reset.enc.fault) ∧
    ((encAt 1 2 3 3).EncReady ∧ (encAt 1 2 3 3).enc.count.val = 3 ∧ ∃ t, exec (.put 4) (encAt 1 2 3 3) = .next t) ∧
    (¬ (decOn []).EncReady ∧ ∃ t, exec (.put 7) (decOn []) = .next t) :=
  ⟨⟨_, rfl, rfl⟩, ⟨by decide, rfl, _, rfl⟩, by decide, _, rfl⟩

/-- A group written, nothing pending, and a refusal. -/
theorem witness_FlushAndCloseFrame :
    ((encAt 5 6 0 2).EncReady ∧ (encAt 5 6 0 2).enc.count ≠ 0 ∧
      ∃ t, exec .flush (encAt 5 6 0 2) = .next t ∧ t.enc.fault = (encAt 5 6 0 2).enc.fault) ∧
    (State.reset.enc.count = 0 ∧ ∃ t, exec .close State.reset = .next t) ∧
    ¬ (decOn []).EncReady ∧ ∃ t, exec .flush (decOn []) = .next t :=
  ⟨⟨by decide, by decide, _, rfl, rfl⟩, ⟨rfl, _, rfl⟩, by decide, _, rfl⟩

/-- A group read that leaves the decoder unfaulted, and a buffered value. -/
theorem witness_GetFrame :
    ((decOn [0x00, 0x05]).DecReady ∧ ¬ (decOn [0x00, 0x05]).dec.rptr < (decOn [0x00, 0x05]).dec.avail ∧
      (decOn [0x00, 0x05]).dec.finished = false ∧
      ∃ t, exec .get (decOn [0x00, 0x05]) = .next t ∧ t.dec.fault = false ∧ t.dec.avail.val ≤ (3 : Fin 4).val) ∧
    (decAt 5 6 2 0 true).dec.rptr < (decAt 5 6 2 0 true).dec.avail ∧ ∃ t, exec .get (decAt 5 6 2 0 true) = .next t :=
  ⟨⟨by decide, by decide, rfl, _, rfl, rfl, by decide⟩, by decide, _, rfl⟩

/-- A control byte that is latched, and one that a decoder with values leaves in the source. -/
theorem witness_ControlByteFrame :
    (∃ t, exec (.groupControlByte 1 1 1 1) (decOn [0x05]) = .next t ∧ t.dec.fault = false ∧
      t.dec.avail.val ≤ (3 : Fin 4).val) ∧
    (decAt 5 6 2 0 true).dec.rptr < (decAt 5 6 2 0 true).dec.avail ∧
    ∃ t, exec (.groupControlByte 1 1 1 1) (decAt 5 6 2 0 true) = .next t :=
  ⟨⟨_, rfl, rfl, by decide⟩, by decide, _, rfl⟩

/-- A PUT that changes GVENC, and a GET that changes GVDEC and its source. -/
theorem witness_UnitsShareNothing :
    (∃ t, exec (.put 7) State.reset = .next t ∧ t.enc ≠ State.reset.enc) ∧
    ∃ t, exec .get (decOn [0x00, 0x05]) = .next t ∧ t.dec ≠ (decOn [0x00, 0x05]).dec ∧
      t.source ≠ (decOn [0x00, 0x05]).source :=
  ⟨⟨_, rfl, by decide⟩, _, rfl, by decide, by decide⟩

theorem witness_SinkOnlyGrows : ∃ t, exec .close (encAt 5 6 0 2) = .next t := ⟨_, rfl⟩

/-- A command word, a control byte and a response word. -/
theorem witness_StepRunsTheDecodedInstruction :
    (({ State.reset with pending := [.command .enc 0x00000012C#35] } : State).pending = [.command .enc 0x00000012C#35] ∧
      decode 35 (0x00000012C#35).toNat = .ok (.put 300) ∧ waitOf (exec (.put 300) State.reset) = none) ∧
    (({ State.reset with pending := [.controlByte 0x18] } : State).pending = [.controlByte 0x18] ∧
      decode 8 (0x18 : Byte).toNat = .ok (.groupControlByte 1 2 3 1) ∧
      waitOf (exec (.groupControlByte 1 2 3 1) { State.reset with port := .dec }) = none) ∧
    ({ State.reset with pending := [.responseWord .dec 0x00000012C#34] } : State).pending =
      [.responseWord .dec 0x00000012C#34] ∧
    decode 34 (0x00000012C#34).toNat = .ok (.response .ok 300) ∧
    waitOf (exec (.response .ok 300) { State.reset with port := .dec }) = none := by decide

/-- A FLUSH that waits on its sink with a PUT behind it, then a GET, or nothing. -/
theorem witness_WaitingUnitHoldsUpItselfOnly :
    let flush := Event.command .enc 0x100000000#35
    let put := Event.command .enc 0x000000007#35
    let get := Event.command .dec 0x400000000#35
    let s := { withSilentSink (encAt 5 6 0 2) with pending := [flush, put, get] }
    let u := { withSilentSink (encAt 5 6 0 2) with pending := [flush, put] }
    (∀ e ∈ [put], e.unit = flush.unit) ∧
    (waitOf (carryOut { s with pending := s.pending.tail } flush) = some .sinkSilent ∧ get.unit ≠ flush.unit ∧
      s.pending = flush :: [put] ++ get :: [] ∧
      waitOf (carryOut { s with pending := flush :: [put] ++ [] } get) = none) ∧
    waitOf (carryOut { u with pending := u.pending.tail } flush) = some .sinkSilent ∧ u.pending = flush :: [put] := by
  decide

theorem witness_EveryCommandTerminates :
    State.reset.Inv ∧ State.reset.sink.after ≠ .silent ∧ State.reset.source.after ≠ .silent := by decide

theorem witness_OneResponsePerCommand :
    ({ State.reset with pending := [.command .enc 0x00000012C#35] } : State).pending = .command .enc 0x00000012C#35 :: [] ∧
    ∃ t, exec (decodeCommand 0x00000012C#35) State.reset = .next t := ⟨rfl, _, rfl⟩

/-- Each unit's reset, without a new stream and with one. -/
theorem witness_ResetEvents :
    ({ encFaulted with pending := [.resetEnc none] } : State).pending = [.resetEnc none] ∧
    ({ encFaulted with pending := [.resetEnc (some (Sink.accepting []))] } : State).pending =
      [.resetEnc (some (Sink.accepting []))] ∧
    ({ decFaulted with pending := [.resetDec none] } : State).pending = [.resetDec none] ∧
    ({ decFaulted with pending := [.resetDec (some (Source.ofBytes [0x00, 0x05]))] } : State).pending =
      [.resetDec (some (Source.ofBytes [0x00, 0x05]))] := by decide

/-- An idle state, and one with a fourth PUT sent. -/
theorem witness_StepKeepsUnitsLegal :
    (State.reset.Inv ∧ ∃ t, step State.reset = .next t) ∧
    ({ encAt 1 2 3 3 with pending := [.command .enc 0x000000004#35] } : State).Inv ∧
    ∃ t, step { encAt 1 2 3 3 with pending := [.command .enc 0x000000004#35] } = .next t :=
  ⟨⟨by decide, _, rfl⟩, by decide, _, rfl⟩

/-- For each faulted unit a command, and its reset behind a command of the other unit that waits; for GVDEC a control
byte too. -/
theorem witness_FaultsAreLeftOnlyByReset :
    (encFaulted.enc.fault = true ∧ ∃ t, step { encFaulted with pending := [.command .enc 0x000000009#35] } = .next t) ∧
    (∃ t, step { decSilent with enc := encFaulted.enc, pending := [.command .dec 0x400000000#35, .resetEnc none] } = .next t ∧
      t.enc = Enc.reset ∧ t.pending = [.command .dec 0x400000000#35]) ∧
    (decFaulted.dec.fault = true ∧ ∃ t, step { decFaulted with pending := [.command .dec 0x400000000#35] } = .next t) ∧
    (∃ t, step { decFaulted with pending := [.controlByte 0x18] } = .next t ∧ t.dec = decFaulted.dec ∧
      t.source = decFaulted.source.offer 0x18) ∧
    ∃ t, step { withSilentSink (encAt 5 6 0 2) with
      dec := decFaulted.dec, pending := [.command .enc 0x100000000#35, .resetDec none] } = .next t ∧
      t.dec = Dec.reset ∧ t.pending = [.command .enc 0x100000000#35] :=
  ⟨⟨rfl, _, rfl⟩, ⟨_, rfl, rfl, rfl⟩, ⟨rfl, _, rfl⟩, ⟨_, rfl, rfl, rfl⟩, _, rfl, rfl, rfl⟩

/-- Two states that differ in a slot past the count, in a value past the available ones, and, faulted, in all else; with
an instruction that goes on, one that hangs and one that is no instruction. -/
theorem witness_UnspecifiedFieldsAreUnobservable :
    ((encAt 5 6 7 2).Same (encAt 5 6 8 2) ∧ encAt 5 6 7 2 ≠ encAt 5 6 8 2 ∧
      ∃ t, exec .flush (encAt 5 6 7 2) = .next t) ∧
    ((decAt 5 6 1 0 true).Same (decAt 5 7 1 0 true) ∧ decAt 5 6 1 0 true ≠ decAt 5 7 1 0 true) ∧
    (encFaulted.Same { encFaulted with enc := { slot := ⟨1, 2, 3, 4⟩, count := 4, fault := true } }) ∧
    (decFaulted.Same { decFaulted with dec := { buf := ⟨1, 2, 3, 4⟩, avail := 1, rptr := 3, finished := true, fault := true } }) ∧
    ((withSilentSink (encAt 5 6 7 2)).Same (withSilentSink (encAt 5 6 8 2)) ∧
      exec .flush (withSilentSink (encAt 5 6 7 2)) = .fault .sinkSilent) ∧
    exec (.groupControlByte 0 1 1 1) (encAt 5 6 7 2) = .refused .illFormed :=
  ⟨⟨by decide, by decide, _, rfl⟩, by decide, by decide, by decide, ⟨by decide, rfl⟩, rfl⟩

/-- P2's commands up to its CLOSE. -/
theorem witness_EncoderRunsEndWell :
    ∃ t, EncoderEndsWell State.reset [.put 5, .put 6] t ∧ PartialFlushIsLast State.reset [.put 5, .put 6] := by
  refine ⟨_, ⟨by decide, by decide, _, _, rfl, rfl, rfl⟩, ?_⟩
  rintro js ks i m h hi - -
  have : i ∈ [Instr.put 5, Instr.put 6] := by rw [h]; simp
  rcases hi with rfl | rfl <;> simp at this

/-- P2's GETs up to the first EOD. -/
theorem witness_DecoderRunsEndWell :
    ∃ t, DecoderEndsWell (decOn [0x00, 0x05, 0x06]) [⟨.dec, .ok, 5⟩, ⟨.dec, .ok, 6⟩] t :=
  ⟨_, by decide, by decide, _, _, rfl, rfl, rfl, rfl⟩

theorem witness_EncodedLength : 1 ≤ ([5] : List Word).length ∧ ([5, 6, 7] : List Word).length ≤ 3 := by decide

theorem witness_PutsThenCloseWriteTheEncoding :
    State.reset.EncReady ∧ State.reset.enc.count = 0 ∧ State.reset.sink.Accepts := by decide

theorem witness_GetsDeliverTheDecoding :
    (decOn [0x00, 0x05, 0x06]).port = .dec ∧ (decOn [0x00, 0x05, 0x06]).dec.NeedGroup ∧
    ∃ r : Source, (decOn [0x00, 0x05, 0x06]).source.Gives (([0x00, 0x05, 0x06] : List Byte).map .byte ++ [.eod]) r :=
  ⟨rfl, by decide, _, Source.ofBytes_gives _⟩

theorem witness_RoundTripOnTheMachine :
    State.reset.EncReady ∧ State.reset.enc.count = 0 ∧ State.reset.sink.Accepts := by decide

end Sys2Proof.Tests
end

