-- ==== Sys2Proof/Proofs/Scope.lean ====
section
/-! PROOFS. The statements of 00_scope: what one unit's instructions leave of the other unit and its stream, and what a
unit that waits holds up (R8, R25, R95). -/

namespace Sys2Proof.Machine

/-! ### A unit and its stream -/

/-- GVENC with the sink it is attached to (R8, R25). -/
def State.encSide (s : State) : Enc × Sink := (s.enc, s.sink)

/-- GVDEC with the source it is attached to (R8, R25). -/
def State.decSide (s : State) : Dec × Source := (s.dec, s.source)

theorem State.encSide_ne_iff {s t : State} : t.encSide ≠ s.encSide ↔ t.enc ≠ s.enc ∨ t.sink ≠ s.sink := by
  rw [State.encSide, State.encSide, ne_eq, Prod.mk.injEq, not_and_or]

theorem State.decSide_ne_iff {s t : State} : t.decSide ≠ s.decSide ↔ t.dec ≠ s.dec ∨ t.source ≠ s.source := by
  rw [State.decSide, State.decSide, ne_eq, Prod.mk.injEq, not_and_or]

/-- What a refusal leaves and the operation's own rule leaves, a command leaves. -/
theorem enter_keeps {α : Type} (part : State → α) {home : Option Port} {body : State → Result} {s t : State}
    (hr : part s.afterRefusal = part s) (hb : body s = .next t → part t = part s)
    (h : enter home body s = .next t) : part t = part s := by
  rcases enter_cases home body s with ⟨he, -⟩ | ⟨-, -, he⟩ <;> rw [he] at h
  · cases h; exact hr
  · exact hb h

/-- A reserved instruction's rule, like its refusal, leaves both units and both streams. -/
theorem noOperation_keeps {s t : State} (h : noOperation s = .next t) :
    t.encSide = s.encSide ∧ t.decSide = s.decSide := by
  cases h; exact ⟨rfl, rfl⟩

/-! ### GVENC's rules leave GVDEC and the source -/

theorem flushAndRespond_decSide {s t : State} (h : flushAndRespond s = .next t) : t.decSide = s.decSide := by
  rcases flushAndRespond_cases s with ⟨-, e⟩ | ⟨-, -, e⟩ | ⟨k, -, -, e⟩ | ⟨k, d, p, -, -, -, e⟩ <;> rw [e] at h <;>
    cases h <;> rfl

theorem putBody_decSide {v : Word} {s t : State} (h : putBody v s = .next t) : t.decSide = s.decSide := by
  rcases putBody_cases v s with ⟨_, -, e⟩ | ⟨_, -, e⟩ | ⟨-, e⟩ <;> rw [e] at h
  · cases h; rfl
  · exact (flushAndRespond_decSide h).trans rfl
  · cases h

/-! ### GVDEC's rule leaves GVENC and the sink -/

theorem State.deliver_encSide (s : State) : s.deliver.encSide = s.encSide := by
  unfold State.deliver
  split <;> rfl

theorem State.answerGroup_encSide {s t : State} {g : GroupRead} (h : s.answerGroup g = .next t) :
    t.encSide = s.encSide := by
  cases g with
  | silent => cases h
  | hardError r => cases h; rfl
  | cleanEnd d r => cases h; rfl
  | group d r => cases h; exact State.deliver_encSide _

theorem getBody_encSide {s t : State} (h : getBody s = .next t) : t.encSide = s.encSide := by
  by_cases hb : s.dec.rptr < s.dec.avail
  · rw [getBody_buffered hb] at h
    cases h; exact s.deliver_encSide
  · cases hf : s.dec.finished
    · rw [getBody_reads hb hf] at h
      exact State.answerGroup_encSide h
    · rw [getBody_finished hb hf] at h
      cases h; rfl

/-! ### Every instruction -/

/-- A control byte that is answered at all is a GET whose source gives that byte next (log 12). -/
theorem execGroupControlByte_next {w0 w1 w2 w3 : Nat} {s t : State} (h : execGroupControlByte w0 w1 w2 w3 s = .next t) :
    enter (some .dec) getBody ((s.withPort .dec).withSource (s.source.offer (pack w0 w1 w2 w3))) = .next t := by
  unfold execGroupControlByte at h
  split at h
  · exact h
  · cases h

/-- Only PUT, FLUSH and CLOSE change GVENC or the sink. -/
theorem exec_encSide {i : Instr} {s t : State} (h : exec i s = .next t) :
    t.encSide = s.encSide ∨ (∃ v, i = .put v) ∨ i = .flush ∨ i = .close := by
  cases i with
  | put v => exact .inr (.inl ⟨v, rfl⟩)
  | flush => exact .inr (.inr (.inl rfl))
  | close => exact .inr (.inr (.inr rfl))
  | get => exact .inl (enter_keeps State.encSide rfl getBody_encSide h)
  | reserved011 | reserved101 | reserved110 | reserved111 =>
    exact .inl (enter_keeps State.encSide rfl (fun hb => (noOperation_keeps hb).1) h)
  | groupControlByte w0 w1 w2 w3 =>
    exact .inl ((enter_keeps State.encSide rfl getBody_encSide (execGroupControlByte_next h)).trans rfl)
  | response st p => cases h; exact .inl rfl

/-- Only GET and a control byte (log 12) change GVDEC or the source. -/
theorem exec_decSide {i : Instr} {s t : State} (h : exec i s = .next t) :
    t.decSide = s.decSide ∨ i = .get ∨ ∃ w0 w1 w2 w3, i = .groupControlByte w0 w1 w2 w3 := by
  cases i with
  | put v => exact .inl (enter_keeps State.decSide rfl putBody_decSide h)
  | flush | close => exact .inl (enter_keeps State.decSide rfl flushAndRespond_decSide h)
  | get => exact .inr (.inl rfl)
  | reserved011 | reserved101 | reserved110 | reserved111 =>
    exact .inl (enter_keeps State.decSide rfl (fun hb => (noOperation_keeps hb).2) h)
  | groupControlByte w0 w1 w2 w3 => exact .inr (.inr ⟨w0, w1, w2, w3, rfl⟩)
  | response st p => cases h; exact .inl rfl

/-- Settles O40: what differs of a unit or its stream rules out every instruction that leaves them. -/
theorem unitsShareNothing : Obligations.UnitsShareNothing := fun _ _ _ h =>
  ⟨fun hne => (exec_encSide h).resolve_left (State.encSide_ne_iff.2 hne),
    fun hne => (exec_decSide h).resolve_left (State.decSide_ne_iff.2 hne)⟩

/-! ### A unit that waits -/

/-- When the oldest event `h` waits, it and the events `hs` of its unit behind it are passed over together. -/
theorem step_waiting {s : State} {h : Event} {hs es : List Event} {f : Fault} (hp : s.pending = h :: (hs ++ es))
    (hu : ∀ e ∈ hs, e.unit = h.unit) (hw : waitOf (carryOut (s.withPending (hs ++ es)) h) = some f) :
    step s = advance s (h :: hs) (some f) es := by
  calc step s = advance s [] none (h :: (hs ++ es)) := by rw [step, hp]
    _ = advance s [h] (some f) (hs ++ es) := advance_hold (held := []) (by simp) hw
    _ = advance s (h :: hs) (some f) es := advance_pass_all hs es (List.mem_singleton_self h) hu

/-- Settles O43: past the waiting unit's events the step stands before the other unit's next event, or before nothing. -/
theorem waitingUnitHoldsUpItselfOnly : Obligations.WaitingUnitHoldsUpItselfOnly := by
  intro s h hs f hu hw
  refine ⟨fun e es hne hp hnw => ?_, fun hp => ?_⟩
  · rw [hp] at hw
    have hheld : ∀ d ∈ h :: hs, d.unit ≠ e.unit :=
      List.forall_mem_cons.2 ⟨hne.symm, fun d hd => hu d hd ▸ hne.symm⟩
    exact (step_waiting hp hu hw).trans (advance_take hheld hnw)
  · rw [hp] at hw
    exact step_waiting (es := []) (by rw [hp, List.append_nil]) hu (by rwa [List.append_nil])

end Sys2Proof.Machine
end

/-! PROOFS. The statements of 10_state: the legal idle states, the mark of end-of-data, the fault flags, and what no
command can tell of a unit's fields (R11 to R24). -/

namespace Sys2Proof.Machine

/-! ### Reset -/

/-- Settles O47: each field is the one written in the reset state. -/
theorem resetState : Obligations.ResetState := ⟨rfl, rfl, rfl, rfl, rfl, rfl, rfl, rfl, rfl⟩

/-- Settles O48: nothing is pending, and nothing is available or delivered. -/
theorem resetIsLegal : Obligations.ResetIsLegal := ⟨.inr (Nat.zero_le _), .inr ⟨le_rfl, fun _ => .inl rfl⟩⟩

/-! ### The entry of a unit's own operation, and GET without a read -/

/-- An operation of the unit behind `p` that is answered was refused, or ran its own rule on that unit, unfaulted. -/
theorem enter_own_next {p : Port} {body : State → Result} {s t : State} (h : enter (some p) body s = .next t) :
    t = s.afterRefusal ∨ (s.faultOf p = false ∧ body s = .next t) := by
  rcases enter_cases (some p) body s with ⟨he, -⟩ | ⟨hp, hf, he⟩ <;> rw [he] at h
  · cases h; exact .inl rfl
  · cases hp; exact .inr ⟨hf, h⟩

/-- A faulted unit refuses its own operations, on either port. -/
theorem enter_own_faulted {p : Port} {body : State → Result} {s t : State} (hf : s.faultOf p = true)
    (h : enter (some p) body s = .next t) : t = s.afterRefusal :=
  (enter_own_next h).resolve_right fun ⟨hf', _⟩ => Bool.false_ne_true (hf'.symm.trans hf)

/-- A pointer below the available values numbers a register. -/
theorem Dec.rptr_castSucc {d : Dec} (h : d.rptr < d.avail) : ∃ k : Fin 4, d.rptr = k.castSucc :=
  ⟨⟨d.rptr.val, by omega⟩, rfl⟩

/-- With a value buffered or the source ended, GET's own rule reads nothing. -/
theorem getBody_noRead {s : State} (h : s.dec.rptr < s.dec.avail ∨ s.dec.finished = true) :
    getBody s = .next s.deliver := by
  by_cases hb : s.dec.rptr < s.dec.avail
  · exact getBody_buffered hb
  · rw [getBody_finished hb (h.resolve_left hb), State.deliver_none hb]

/-! ### Legal idle states (R14, R20) -/

/-- After a flush that was answered nothing is pending, or the unit is faulted. -/
theorem flushAndRespond_encInv {s t : State} (h : flushAndRespond s = .next t) : t.enc.Inv := by
  rcases flushAndRespond_cases s with ⟨h0, e⟩ | ⟨-, -, e⟩ | ⟨k, -, -, e⟩ | ⟨k, d, p, -, -, hd, e⟩ <;> rw [e] at h <;>
    cases h
  · exact .inr (h0 ▸ Nat.zero_le 3)
  · exact .inr (Nat.zero_le 3)
  · exact .inl hd

/-- After a PUT that was answered the count is at most 3, or the unit is faulted: the fourth value is flushed. -/
theorem putBody_encInv {v : Word} {s t : State} (h : putBody v s = .next t) : t.enc.Inv := by
  rcases putBody_cases v s with ⟨_, h3, e⟩ | ⟨_, -, e⟩ | ⟨-, e⟩ <;> rw [e] at h
  · cases h; exact .inr h3
  · exact flushAndRespond_encInv h
  · cases h

/-- Delivering moves the pointer past a value that is there, or marks the source ended. -/
theorem State.deliver_decInv {s : State} (hi : s.dec.Inv) : s.deliver.dec.Inv := by
  by_cases hb : s.dec.rptr < s.dec.avail
  · obtain ⟨k, hk⟩ := Dec.rptr_castSucc hb
    rw [State.deliver_ok hb hk]
    exact hi.imp id fun ⟨_, hend⟩ => ⟨Fin.castSucc_lt_iff_succ_le.1 (hk ▸ hb), hend⟩
  · rw [State.deliver_none hb]
    exact hi.imp id fun ⟨hle, _⟩ => ⟨hle, fun _ => .inr rfl⟩

/-- GET's own rule keeps the decoder legal, whatever the source answers. -/
theorem getBody_decInv {s t : State} (hi : s.dec.Inv) (hd : s.dec.fault = false) (h : getBody s = .next t) :
    t.dec.Inv := by
  by_cases hn : s.dec.rptr < s.dec.avail ∨ s.dec.finished = true
  · rw [getBody_noRead hn] at h
    cases h; exact State.deliver_decInv hi
  · obtain ⟨hb, hf⟩ := not_or.1 hn
    rcases getBody_reads_cases hb (Bool.eq_false_of_not_eq_true hf) hd with ⟨-, e⟩ | ⟨_, _, r, d, n, st, p, -, -, e, hcase⟩ <;>
      rw [e] at h <;> cases h
    rcases hcase with ⟨-, -, herr⟩ | ⟨-, -, rfl⟩ |
      ⟨-, -, ⟨-, -, hr, ha, -⟩ | ⟨-, -, hr, ha, hend⟩ | ⟨-, -, hr, ha, hend⟩⟩
    · exact .inl herr
    · exact hi.imp id fun ⟨hle, _⟩ => ⟨hle, fun _ => .inr rfl⟩
    · exact .inr ⟨by simp [hr, ha], fun hlt => by simp [ha] at hlt⟩
    · exact .inr ⟨by simpa [hr] using ha, fun _ => .inr hend⟩
    · exact .inr ⟨by simp [hr], fun _ => .inr hend⟩

/-- A GET, with a byte put before its source's answers or not, keeps the decoder legal. -/
theorem enterGet_decInv {s t : State} (hi : s.dec.Inv) (h : enter (some .dec) getBody s = .next t) : t.dec.Inv := by
  rcases enter_own_next h with rfl | ⟨hd, hb⟩
  · exact hi
  · exact getBody_decInv hi hd hb

/-- An operation of GVENC keeps it legal if its own rule answers legal states only. -/
theorem enterEnc_encInv {body : State → Result} {s t : State} (hi : s.enc.Inv)
    (hb : body s = .next t → t.enc.Inv) (h : enter (some .enc) body s = .next t) : t.enc.Inv := by
  rcases enter_own_next h with rfl | ⟨-, he⟩
  · exact hi
  · exact hb he

theorem exec_encInv {i : Instr} {s t : State} (hi : s.enc.Inv) (h : exec i s = .next t) : t.enc.Inv := by
  rcases exec_encSide h with hs | ⟨v, rfl⟩ | rfl | rfl
  · rw [show t.enc = s.enc from congrArg Prod.fst hs]; exact hi
  · exact enterEnc_encInv hi putBody_encInv h
  · exact enterEnc_encInv hi flushAndRespond_encInv h
  · exact enterEnc_encInv hi flushAndRespond_encInv h

theorem exec_decInv {i : Instr} {s t : State} (hi : s.dec.Inv) (h : exec i s = .next t) : t.dec.Inv := by
  rcases exec_decSide h with hs | rfl | ⟨w0, w1, w2, w3, rfl⟩
  · rw [show t.dec = s.dec from congrArg Prod.fst hs]; exact hi
  · exact enterGet_decInv hi h
  · exact enterGet_decInv (by exact hi) (execGroupControlByte_next h)

/-- Every instruction keeps both units legal. -/
theorem exec_inv {i : Instr} {s t : State} (hi : s.Inv) (h : exec i s = .next t) : t.Inv :=
  ⟨exec_encInv hi.1 h, exec_decInv hi.2 h⟩

/-- Every event keeps both units legal: a reset makes its unit so (R24). -/
theorem carryOut_inv {s t : State} {e : Event} (hi : s.Inv) (h : carryOut s e = .next t) : t.Inv := by
  cases e with
  | command p w => exact exec_inv (s := s.withPort p) hi h
  | controlByte c => exact exec_inv (i := decodeControlByte c) (s := s.withPort .dec) hi h
  | responseWord p w => cases h; exact hi
  | resetEnc a => cases h; exact ⟨resetIsLegal.1, hi.2⟩
  | resetDec a => cases h; exact ⟨hi.1, resetIsLegal.2⟩

/-- Settles O49: a step changes nothing, or carries out one event. -/
theorem stepKeepsUnitsLegal : Obligations.StepKeepsUnitsLegal := by
  intro s t hi h
  rcases step_next h with ⟨-, rfl⟩ | ⟨held, e, es, -, hc⟩
  · exact hi
  · exact carryOut_inv (s := s.withPending (held ++ es)) hi hc

/-! ### End-of-data (R18) -/

/-- The decoder is unfaulted, its source has ended, and the source has been given `n` reads. -/
def State.EndedAfter (s : State) (n : Nat) : Prop := s.dec.finished = true ∧ s.dec.fault = false ∧ s.source.reads = n

/-- Delivering keeps the mark and the fault flag, and reads nothing. -/
theorem State.deliver_endedAfter {s : State} {n : Nat} (he : s.EndedAfter n) : s.deliver.EndedAfter n := by
  unfold State.deliver
  split
  · exact he
  · exact ⟨rfl, he.2⟩

/-- A GET of a decoder whose source has ended reads nothing. -/
theorem enterGet_endedAfter {s t : State} {n : Nat} (he : s.EndedAfter n)
    (h : enter (some .dec) getBody s = .next t) : t.EndedAfter n := by
  rcases enter_own_next h with rfl | ⟨-, hb⟩
  · exact he
  · rw [getBody_noRead (.inr he.1)] at hb
    cases hb; exact State.deliver_endedAfter he

/-- Settles O33: only GET, and a control byte (log 12), can change the decoder or reach its source. -/
theorem endOfDataIsFinal : Obligations.EndOfDataIsFinal := by
  intro i s t hd hf h
  have he : s.EndedAfter s.source.reads := ⟨hf, hd, rfl⟩
  rcases exec_decSide h with hs | rfl | ⟨w0, w1, w2, w3, rfl⟩
  · obtain ⟨hdec, hsrc⟩ := Prod.ext_iff.1 hs
    exact ⟨(congrArg Dec.finished hdec).trans hf, (congrArg Dec.fault hdec).trans hd, congrArg Source.reads hsrc⟩
  · exact enterGet_endedAfter he h
  · exact enterGet_endedAfter (by exact he) (execGroupControlByte_next h)

/-! ### Faults (R13, R19, R91) -/

/-- Encoding the widths a control byte declares gives the byte back (R42, R68). -/
theorem pack_dwidth (c : Byte) : pack (dwidth c 0) (dwidth c 1) (dwidth c 2) (dwidth c 3) = c := by
  revert c; decide

theorem decodeCommand_isCommand (w : BitVec 35) : isCommand (decodeCommand w) = true := by
  unfold decodeCommand
  split <;> rfl

/-- While GVENC is faulted no instruction changes it or reaches the sink. -/
theorem exec_encSide_of_faulted {i : Instr} {s t : State} (hf : s.enc.fault = true) (h : exec i s = .next t) :
    t.encSide = s.encSide := by
  rcases exec_encSide h with hs | ⟨v, rfl⟩ | rfl | rfl
  · exact hs
  all_goals rw [enter_own_faulted (p := .enc) hf h]; rfl

/-- While GVDEC is faulted no command changes it or reaches the source. -/
theorem exec_decSide_of_faulted {i : Instr} {s t : State} (hf : s.dec.fault = true) (hi : isCommand i = true)
    (h : exec i s = .next t) : t.decSide = s.decSide := by
  rcases exec_decSide h with hs | rfl | ⟨w0, w1, w2, w3, rfl⟩
  · exact hs
  · rw [enter_own_faulted (p := .dec) hf h]; rfl
  · cases hi

/-- While GVDEC is faulted a control byte is only put before the source's other answers (log 12). -/
theorem carryOut_controlByte_faulted {s t : State} {c : Byte} (hf : s.dec.fault = true)
    (h : carryOut s (.controlByte c) = .next t) :
    t = ((s.withPort .dec).withSource (s.source.offer c)).afterRefusal := by
  have he := enter_own_faulted (p := .dec) (by exact hf) (execGroupControlByte_next h)
  rwa [pack_dwidth] at he

/-- What an event does to a faulted GVENC and its sink: nothing, or its reset. -/
theorem carryOut_encFaulted {s t : State} {e : Event} (hf : s.enc.fault = true) (h : carryOut s e = .next t) :
    t.encSide = s.encSide ∨ ∃ a, e = .resetEnc a ∧ t = s.resetEncoder a := by
  cases e with
  | command p w => exact .inl (exec_encSide_of_faulted (s := s.withPort p) hf h)
  | controlByte c => exact .inl (exec_encSide_of_faulted (i := decodeControlByte c) (s := s.withPort .dec) hf h)
  | responseWord p w => cases h; exact .inl rfl
  | resetEnc a => cases h; exact .inr ⟨a, rfl, rfl⟩
  | resetDec a => cases h; exact .inl rfl

/-- What an event does to a faulted GVDEC and its source: nothing, a control byte put first, or its reset. -/
theorem carryOut_decFaulted {s t : State} {e : Event} (hf : s.dec.fault = true) (h : carryOut s e = .next t) :
    t.decSide = s.decSide ∨
      (∃ c, e = .controlByte c ∧ t.dec = s.dec ∧ t.source = s.source.offer c ∧ t.pending = s.pending) ∨
      ∃ a, e = .resetDec a ∧ t = s.resetDecoder a := by
  cases e with
  | command p w => exact .inl (exec_decSide_of_faulted (s := s.withPort p) hf (decodeCommand_isCommand w) h)
  | controlByte c =>
    obtain rfl := carryOut_controlByte_faulted hf h
    exact .inr (.inl ⟨c, rfl, rfl, rfl, rfl⟩)
  | responseWord p w => cases h; exact .inl rfl
  | resetEnc a => cases h; exact .inl rfl
  | resetDec a => cases h; exact .inr (.inr ⟨a, rfl, rfl⟩)

/-- Settles O50: the one event a step carries out leaves a faulted unit, or is its reset. -/
theorem faultsAreLeftOnlyByReset : Obligations.FaultsAreLeftOnlyByReset := by
  intro s t h
  rcases step_next h with ⟨-, rfl⟩ | ⟨held, e, es, hp, hc⟩
  · exact ⟨fun _ => .inl ⟨rfl, rfl⟩, fun _ => .inl ⟨rfl, .inl rfl⟩⟩
  refine ⟨fun hf => ?_, fun hf => ?_⟩
  · rcases carryOut_encFaulted (s := s.withPending (held ++ es)) hf hc with hs | ⟨a, rfl, ht⟩
    · exact .inl (Prod.ext_iff.1 hs)
    · exact .inr ⟨held, es, a, Enc.reset, hp, ht, rfl, rfl⟩
  · rcases carryOut_decFaulted (s := s.withPending (held ++ es)) hf hc with hs | ⟨c, rfl, hd, hsrc, hpend⟩ | ⟨a, rfl, ht⟩
    · obtain ⟨hd, hsrc⟩ := Prod.ext_iff.1 hs
      exact .inl ⟨hd, .inl hsrc⟩
    · exact .inl ⟨hd, .inr ⟨held, es, c, hp, hpend, hsrc⟩⟩
    · exact .inr ⟨held, es, a, Dec.reset, hp, ht, rfl, rfl, rfl, rfl⟩

/-! ### What no command can tell: the updates (R11, R13, R16, R19)

Each update, given alike to two states that no command tells apart, leaves two such states. -/

theorem Enc.Same.refl (e : Enc) : e.Same e := ⟨rfl, fun _ => ⟨rfl, fun _ _ => rfl⟩⟩

theorem Dec.Same.refl (d : Dec) : d.Same d := ⟨rfl, fun _ => ⟨rfl, rfl, rfl, fun _ _ => rfl⟩⟩

theorem Dec.Same.markFinished {d d' : Dec} (h : d.Same d') : d.markFinished.Same d'.markFinished :=
  ⟨h.1, fun hf => let ⟨ha, hr, _, hb⟩ := h.2 hf; ⟨ha, hr, rfl, hb⟩⟩

section Updates
variable {s s' : State}

theorem State.Same.enc_same (h : s.Same s') : s.enc.Same s'.enc := h.1

theorem State.Same.dec_same (h : s.Same s') : s.dec.Same s'.dec := let ⟨_, hd, _⟩ := h; hd

theorem State.Same.sink_eq (h : s.Same s') : s.sink = s'.sink := let ⟨_, _, hk, _⟩ := h; hk

theorem State.Same.source_eq (h : s.Same s') : s.source = s'.source := let ⟨_, _, _, hr, _⟩ := h; hr

theorem State.Same.port_eq (h : s.Same s') : s.port = s'.port := let ⟨_, _, _, _, _, hp, _⟩ := h; hp

theorem State.Same.draws_eq (h : s.Same s') : s.draws = s'.draws := let ⟨_, _, _, _, _, _, _, hn⟩ := h; hn

theorem State.Same.faultOf_eq (h : s.Same s') (p : Port) : s.faultOf p = s'.faultOf p := by
  cases p
  · exact h.enc_same.1
  · exact h.dec_same.1

theorem State.Same.withEnc {e e' : Enc} (h : s.Same s') (he : e.Same e') : (s.withEnc e).Same (s'.withEnc e') :=
  ⟨he, h.2⟩

theorem State.Same.withDec {d d' : Dec} (h : s.Same s') (hd : d.Same d') : (s.withDec d).Same (s'.withDec d') := by
  obtain ⟨he, -, hrest⟩ := h
  exact ⟨he, hd, hrest⟩

theorem State.Same.withSink (k : Sink) (h : s.Same s') : (s.withSink k).Same (s'.withSink k) := by
  obtain ⟨he, hd, -, hrest⟩ := h
  exact ⟨he, hd, rfl, hrest⟩

theorem State.Same.withSource (r : Source) (h : s.Same s') : (s.withSource r).Same (s'.withSource r) := by
  obtain ⟨he, hd, hk, -, hrest⟩ := h
  exact ⟨he, hd, hk, rfl, hrest⟩

theorem State.Same.withPort (p : Port) (h : s.Same s') : (s.withPort p).Same (s'.withPort p) := by
  obtain ⟨he, hd, hk, hr, hpend, -, hrest⟩ := h
  exact ⟨he, hd, hk, hr, hpend, rfl, hrest⟩

theorem State.Same.sends (r : Response) (h : s.Same s') : (s.sends r).Same (s'.sends r) := by
  obtain ⟨he, hd, hk, hr, hpend, hp, hres, hn⟩ := h
  exact ⟨he, hd, hk, hr, hpend, hp, congrArg (· ++ [r]) hres, hn⟩

theorem State.Same.drawn (h : s.Same s') : s.drawn.Same s'.drawn := by
  obtain ⟨he, hd, hk, hr, hpend, hp, hres, hn⟩ := h
  exact ⟨he, hd, hk, hr, hpend, hp, hres, congrArg (· + 1) hn⟩

theorem State.Same.respondBare (p : Port) (st : Status) (h : s.Same s') :
    (s.respondBare p st).Same (s'.respondBare p st) := by
  unfold State.respondBare
  rw [← h.draws_eq]
  exact (h.sends _).drawn

/-- What a failed write leaves open is drawn alike. -/
theorem State.Same.spoilEnc (h : s.Same s') : s.spoilEnc.Same s'.spoilEnc := by
  unfold State.spoilEnc
  rw [← h.draws_eq]
  exact (h.withEnc (.refl _)).drawn

/-- What a failed read leaves open is drawn alike. -/
theorem State.Same.spoilDec (h : s.Same s') : s.spoilDec.Same s'.spoilDec := by
  unfold State.spoilDec
  rw [← h.draws_eq]
  exact (h.withDec (.refl _)).drawn

theorem State.Same.raise (c : Condition) (h : s.Same s') : (s.raise c).Same (s'.raise c) := by
  cases c with
  | endOfData => exact (h.withDec h.dec_same.markFinished).respondBare _ _
  | readError => exact h.spoilDec.respondBare _ _
  | writeError => exact h.spoilEnc.respondBare _ _
  | refused =>
    simp only [State.raise, ← h.port_eq]
    exact h.respondBare _ _

end Updates

/-! ### What no command can tell: the entry -/

/-- Two answers that no command tells apart: next states alike, the same fault, or the same refusal. -/
inductive SameResult : Result → Result → Prop where
  | next {t t' : State} (h : t.Same t') : SameResult (.next t) (.next t')
  | fault (f : Fault) : SameResult (.fault f) (.fault f)
  | refused (r : Refusal) : SameResult (.refused r) (.refused r)

/-- The entry's checks go alike, so an operation's own rule is asked of unfaulted units only. -/
theorem enter_same {home : Option Port} {body : State → Result} {s s' : State} (h : s.Same s')
    (hb : ∀ p, home = some p → s.faultOf p = false → SameResult (body s) (body s')) :
    SameResult (enter home body s) (enter home body s') := by
  unfold enter
  rw [← h.port_eq, ← h.faultOf_eq]
  cases hf : s.faultOf s.port
  · by_cases hp : home = some s.port
    · simpa [hp] using hb _ hp hf
    · simpa [hp] using .next (h.raise .refused)
  · exact .next (h.raise .refused)

/-! ### What no command can tell: GVENC's rules -/

/-- An unfaulted GVENC is told by its pending values: padding makes two that no command tells apart equal. -/
theorem Enc.Same.pad_eq {e e' : Enc} (h : e.Same e') (hf : e.fault = false) : e.pad = e'.pad := by
  obtain ⟨hc, hk⟩ := h.2 hf
  have hs : e.slot.padded e.count.val = e'.slot.padded e.count.val := Quad.ext_get fun k => by
    rw [Quad.get_padded, Quad.get_padded]
    split
    · exact hk k ‹_›
    · rfl
  simp only [Enc.pad, ← hc, ← h.1, hs]

theorem Enc.Same.flushBytes_eq {e e' : Enc} (h : e.Same e') (hf : e.fault = false) : e.flushBytes = e'.flushBytes := by
  rw [← e.flushBytes_pad, h.pad_eq hf, e'.flushBytes_pad]

/-- DOFLUSH's answer is decided by the padded slots, the count and the sink. -/
theorem flushAndRespond_same {s s' : State} (h : s.Same s') (hf : s.enc.fault = false) :
    SameResult (flushAndRespond s) (flushAndRespond s') := by
  obtain ⟨hc, -⟩ := h.enc_same.2 hf
  have hp := h.enc_same.pad_eq hf
  have hb := h.enc_same.flushBytes_eq hf
  have hpad : (s.withEnc s.enc.pad).Same (s'.withEnc s.enc.pad) := h.withEnc (.refl _)
  unfold flushAndRespond State.doFlush State.sinkWrite
  simp only [State.withEnc_sink, State.withEnc_draws, ← hc, ← hp, ← hb, ← h.sink_eq, ← h.draws_eq]
  by_cases h0 : s.enc.count = 0
  · simpa [h0] using .next (h.sends _)
  · simp only [h0, if_false]
    rcases s.sink.answer with _ | ⟨_ | _, k⟩
    · exact .fault _
    · exact .next (((hpad.withSink _).withEnc (.refl _)).sends _)
    · exact .next ((hpad.withSink _).drawn.raise _)

/-- Appending alike keeps the pending values alike. -/
theorem Enc.Same.appended {e e' : Enc} (h : e.Same e') (hf : e.fault = false) (v : Word) (h4 : e.count.val < 4)
    (h4' : e'.count.val < 4) : (e.appended v h4).Same (e'.appended v h4') := by
  obtain ⟨hs, hc, hfl⟩ := e.appended_spec v h4
  obtain ⟨hs', hc', hfl'⟩ := e'.appended_spec v h4'
  obtain ⟨hcc, hk⟩ := h.2 hf
  refine ⟨by rw [hfl, hfl', h.1], fun _ => ⟨Fin.ext (by rw [hc, hc', hcc]), fun k hlt => ?_⟩⟩
  rw [hs, hs', ← hcc]
  split
  · rfl
  · exact hk k (by omega)

theorem putBody_same {s s' : State} (v : Word) (h : s.Same s') (hf : s.enc.fault = false) :
    SameResult (putBody v s) (putBody v s') := by
  obtain ⟨hc, -⟩ := h.enc_same.2 hf
  unfold putBody
  by_cases h4 : s.enc.count.val < 4
  · have h4' : s'.enc.count.val < 4 := hc ▸ h4
    have ha := h.withEnc (h.enc_same.appended hf v h4 h4')
    obtain ⟨hac, -⟩ := ha.enc_same.2 hf
    rw [dif_pos h4, dif_pos h4']
    by_cases hfull : (s.withEnc (s.enc.appended v h4)).enc.count = 4
    · simpa only [if_pos hfull, if_pos (hac ▸ hfull)] using flushAndRespond_same ha hf
    · simpa only [if_neg hfull, if_neg (hac ▸ hfull)] using .next (ha.sends _)
  · rw [dif_neg h4, dif_neg (hc ▸ h4)]
    exact .fault _

/-! ### What no command can tell: READGROUP -/

/-- Two reads of the slots that went alike: all slots read, the same values; stopped in slot `k`, the same values before
it. -/
inductive SlotsRead.Same : SlotsRead → SlotsRead → Prop where
  | silent : Same .silent .silent
  | full (buf : Quad) (r : Source) : Same (.full buf r) (.full buf r)
  | stopped {buf buf' : Quad} {why : Stop} (r : Source)
      (h : ∀ k, why = .shortGroup k → ∀ j, j < k → buf.get j = buf'.get j) :
      Same (.stopped why buf r) (.stopped why buf' r)

/-- Two group reads that went alike, of unfaulted decoders that no command tells apart. -/
inductive GroupRead.Same : GroupRead → GroupRead → Prop where
  | silent : Same .silent .silent
  | hardError (r : Source) : Same (.hardError r) (.hardError r)
  | cleanEnd {d d' : Dec} (r : Source) (h : d.Same d') : Same (.cleanEnd d r) (.cleanEnd d' r)
  | group {d d' : Dec} (r : Source) (h : d.Same d') (hf : d.fault = false) : Same (.group d r) (.group d' r)

/-- A short group read in slot `k` is a short group of `k` values (R71). -/
theorem readSlot_shortGroup {j k : Fin 4} {w : Nat} {acc : Word} {r r' : Source}
    (h : readSlot k w acc r = .stopped (.shortGroup j) r') : j = k := by
  rcases readSlot_cases k w acc r with ⟨-, e⟩ | ⟨bs, m, -, -, e⟩ | ⟨bs, a, why, m, -, ha, -, e⟩ <;> rw [e] at h <;>
    cases h
  cases a <;> cases ha
  rfl

/-- Reading the slots `ks` in rising order: each is written before its value can be told, so the buffers need agree only in
the other slots. -/
theorem readSlots_same (c : Byte) {ks : List (Fin 4)} (hks : ks.Pairwise (· < ·)) {buf buf' : Quad}
    (h : ∀ j, j ∉ ks → buf.get j = buf'.get j) (r : Source) :
    (readSlots c ks buf r).Same (readSlots c ks buf' r) := by
  induction ks generalizing buf buf' r with
  | nil =>
    rw [Quad.ext_get fun j => h j List.not_mem_nil]
    exact .full buf' r
  | cons k ks ih =>
    obtain ⟨hk, hks⟩ := List.pairwise_cons.1 hks
    cases hr : readSlot k (dwidth c k) 0 r with
    | silent => simp only [readSlots, hr]; exact .silent
    | whole v m =>
      simp only [readSlots, hr]
      refine ih hks (fun j hj => ?_) m
      rw [Quad.get_set, Quad.get_set]
      split
      · rfl
      · exact h j (by simp [*])
    | stopped why m =>
      simp only [readSlots, hr]
      refine .stopped m fun i hi j hj => h j fun hmem => ?_
      obtain rfl := readSlot_shortGroup (hi ▸ hr)
      rcases List.mem_cons.1 hmem with rfl | hmem
      · exact lt_irrefl _ hj
      · exact lt_asymm hj (hk j hmem)

/-- The end of READGROUP keeps decoders alike whose slots were read alike. -/
theorem Dec.Same.conclude {d d' : Dec} {x x' : SlotsRead} (h : d.Same d') (hf : d.fault = false) (hx : x.Same x') :
    (d.conclude x).Same (d'.conclude x') := by
  obtain ⟨-, -, hfin, -⟩ := h.2 hf
  cases hx with
  | silent => exact .silent
  | full buf r => exact .group r ⟨h.1, fun _ => ⟨rfl, rfl, hfin, fun _ _ => rfl⟩⟩ hf
  | @stopped _ _ why r hb =>
    cases why with
    | cleanEnd => exact .cleanEnd r h.markFinished
    | shortGroup k => exact .group r ⟨h.1, fun _ => ⟨rfl, rfl, rfl, fun j hj => hb k rfl j hj⟩⟩ hf
    | hardError => exact .hardError r

theorem Dec.Same.readGroup {d d' : Dec} (h : d.Same d') (hf : d.fault = false) (r : Source) :
    (d.readGroup r).Same (d'.readGroup r) := by
  unfold Dec.readGroup
  rcases r.read with _ | ⟨_ | _ | _, m⟩
  · exact .silent
  · exact h.conclude hf (readSlots_same _ (by decide) (fun j hj => absurd (by fin_cases j <;> decide) hj) m)
  · exact h.conclude hf (.stopped m nofun)
  · exact h.conclude hf (.stopped m nofun)

/-! ### What no command can tell: GET, and every instruction -/

/-- The value at the read pointer is an available one. -/
theorem State.Same.deliver {s s' : State} (h : s.Same s') (hf : s.dec.fault = false) : s.deliver.Same s'.deliver := by
  obtain ⟨ha, hr, hfin, hb⟩ := h.dec_same.2 hf
  by_cases hlt : s.dec.rptr < s.dec.avail
  · obtain ⟨k, hk⟩ := Dec.rptr_castSucc hlt
    have hmoved : Dec.Same { s.dec with rptr := k.succ } { s'.dec with rptr := k.succ } :=
      ⟨h.dec_same.1, fun _ => ⟨ha, rfl, hfin, hb⟩⟩
    rw [State.deliver_ok hlt hk, State.deliver_ok (hr ▸ ha ▸ hlt) (hr ▸ hk), ← hb k (Fin.lt_def.1 (hk ▸ hlt))]
    exact (h.withDec hmoved).sends _
  · rw [State.deliver_none hlt, State.deliver_none (hr ▸ ha ▸ hlt)]
    exact h.raise .endOfData

theorem State.Same.answerGroup {s s' : State} {g g' : GroupRead} (h : s.Same s') (hg : g.Same g') :
    SameResult (s.answerGroup g) (s'.answerGroup g') := by
  cases hg with
  | silent => exact .fault _
  | hardError r => exact .next ((h.withSource r).raise .readError)
  | cleanEnd r hd => exact .next (((h.withSource r).withDec hd).raise .endOfData)
  | group r hd hf => exact .next (((h.withSource r).withDec hd).deliver hf)

theorem getBody_same {s s' : State} (h : s.Same s') (hf : s.dec.fault = false) :
    SameResult (getBody s) (getBody s') := by
  obtain ⟨ha, hr, hfin, -⟩ := h.dec_same.2 hf
  unfold getBody
  rw [← ha, ← hr, ← hfin, ← h.source_eq]
  split
  · exact .next (h.deliver hf)
  · split
    · exact .next (h.raise .endOfData)
    · exact h.answerGroup (h.dec_same.readGroup hf _)

/-- Every instruction answers alike in two states that no command tells apart. -/
theorem exec_same (i : Instr) {s s' : State} (h : s.Same s') : SameResult (exec i s) (exec i s') := by
  cases i with
  | put v => exact enter_same h fun | _, rfl, hf => putBody_same v h hf
  | flush | close => exact enter_same h fun | _, rfl, hf => flushAndRespond_same h hf
  | get => exact enter_same h fun | _, rfl, hf => getBody_same h hf
  | reserved011 | reserved101 | reserved110 | reserved111 => exact enter_same h nofun
  | groupControlByte w0 w1 w2 w3 =>
    simp only [exec, execGroupControlByte]
    split
    · rw [← h.source_eq]
      have ho := (h.withPort .dec).withSource (s.source.offer (pack w0 w1 w2 w3))
      exact enter_same ho fun | _, rfl, hf => getBody_same ho hf
    · exact .refused _
  | response st p =>
    simp only [exec, execResponse, ← h.port_eq]
    exact .next (h.sends _)

/-- What `SameResult` says of each kind of answer. -/
theorem SameResult.answers {x x' : Result} (h : SameResult x x') :
    (∀ t, x = .next t → ∃ t', x' = .next t' ∧ t.Same t') ∧ (∀ f, x = .fault f → x' = .fault f) ∧
      ∀ r, x = .refused r → x' = .refused r := by
  cases h with
  | next ht => exact ⟨fun _ he => by cases he; exact ⟨_, rfl, ht⟩, nofun, nofun⟩
  | fault f => exact ⟨nofun, fun _ => id, nofun⟩
  | refused r => exact ⟨nofun, nofun, fun _ => id⟩

/-- Settles O51: the units' rules, one by one, read only what the two states have in common. -/
theorem unspecifiedFieldsAreUnobservable : Obligations.UnspecifiedFieldsAreUnobservable := fun i _ _ h =>
  (exec_same i h).answers

end Sys2Proof.Machine

/-! PROOFS. The statements of 20_memory: how many reads a GET makes, that the sink is append-only, and that a step runs the
instruction its oldest event decodes to (R25, R26, R30, R34, R107). -/

namespace Sys2Proof.Machine

/-! ### The source -/

theorem State.deliver_source (s : State) : s.deliver.source = s.source := by
  unfold State.deliver
  split <;> rfl

/-- A GET that must read a group makes 1 to 17 reads. -/
theorem getBody_reads_count {s t : State} (hb : ¬ s.dec.rptr < s.dec.avail) (hf : s.dec.finished = false)
    (hd : s.dec.fault = false) (h : getBody s = .next t) :
    s.source.reads + 1 ≤ t.source.reads ∧ t.source.reads ≤ s.source.reads + 17 := by
  rcases getBody_reads_cases hb hf hd with ⟨-, e⟩ | ⟨bs, a, r, d, n, st, p, hl, hg, e, -⟩ <;> rw [e] at h <;> cases h
  have hr : r.reads = s.source.reads + (bs.length + 1) := by simpa using hg.spec.2
  show _ ≤ r.reads ∧ r.reads ≤ _
  omega

/-- Settles O32: a refused GET reads nothing, and one that is carried out reads a group or delivers what is there. -/
theorem getReadCount : Obligations.GetReadCount := by
  intro s t h
  have he : enter (some .dec) getBody s = .next t := h
  rcases enter_cases (some .dec) getBody s with ⟨e, hfault⟩ | ⟨hp, hd, e⟩ <;> rw [e] at he
  · have hnot : ¬ s.DecReady := fun ⟨hp, hd⟩ => by simp [hp, State.faultOf, hd] at hfault
    cases he
    rw [if_neg fun hr => hnot hr.1]
  · have hp : s.port = .dec := (Option.some.inj hp).symm
    rw [hp] at hd
    split_ifs with hc
    · obtain ⟨-, hb, hf⟩ := hc
      exact getBody_reads_count hb hf hd he
    · have hn : s.dec.rptr < s.dec.avail ∨ s.dec.finished = true := by
        by_contra hn
        obtain ⟨hb, hf⟩ := not_or.1 hn
        exact hc ⟨⟨hp, hd⟩, hb, Bool.eq_false_of_not_eq_true hf⟩
      rw [getBody_noRead hn] at he
      cases he; exact s.deliver_source

/-! ### The sink -/

/-- A flush that is answered leaves the sink's contents, or appends to them all it writes or a part of it. -/
theorem flushAndRespond_contents {s t : State} (h : flushAndRespond s = .next t) :
    s.sink.contents <+: t.sink.contents := by
  rcases flushAndRespond_cases s with ⟨-, e⟩ | ⟨-, -, e⟩ | ⟨k, -, ha, e⟩ | ⟨k, d, p, -, ha, -, e⟩ <;> rw [e] at h <;>
    cases h
  · exact List.prefix_rfl
  all_goals
    rw [← (Sink.answer_spec ha).1]
    exact List.prefix_append ..

theorem putBody_contents {v : Word} {s t : State} (h : putBody v s = .next t) :
    s.sink.contents <+: t.sink.contents := by
  rcases putBody_cases v s with ⟨_, -, e⟩ | ⟨hv, -, e⟩ | ⟨-, e⟩ <;> rw [e] at h
  · cases h; exact List.prefix_rfl
  · exact flushAndRespond_contents (s := s.withEnc (s.enc.appended v hv)) h
  · cases h

/-- A refused operation of GVENC leaves the sink, so the sink grows if the operation's own rule lets it grow. -/
theorem enterEnc_contents {body : State → Result} {s t : State}
    (hb : body s = .next t → s.sink.contents <+: t.sink.contents) (h : enter (some .enc) body s = .next t) :
    s.sink.contents <+: t.sink.contents := by
  rcases enter_own_next h with rfl | ⟨-, he⟩
  · exact List.prefix_rfl
  · exact hb he

/-- Settles O41: only PUT, FLUSH and CLOSE reach the sink, and what they do to it is append. -/
theorem sinkOnlyGrows : Obligations.SinkOnlyGrows := by
  intro i s t h
  rcases exec_encSide h with hs | ⟨v, rfl⟩ | rfl | rfl
  · rw [show t.sink = s.sink from congrArg Prod.snd hs]
  · exact enterEnc_contents putBody_contents h
  · exact enterEnc_contents flushAndRespond_contents h
  · exact enterEnc_contents flushAndRespond_contents h

/-! ### The step -/

/-- Settles O42: each kind of word decodes by its length to the instruction that carrying out its event runs. -/
theorem stepRunsTheDecodedInstruction : Obligations.StepRunsTheDecodedInstruction := by
  refine ⟨fun s p w es i hp hi => ?_, fun s c es i hp hi => ?_, fun s p w es i hp hi => ?_⟩
  · cases (decode_command w).symm.trans hi
    exact step_oldest hp
  · cases (decode_controlByte c).symm.trans hi
    exact step_oldest hp
  · cases (decode_response w).symm.trans hi
    exact step_oldest hp

end Sys2Proof.Machine

/-! PROOFS. The statements of 30_encoding: the words and what they stand for, the words that are refused, the one response
to a command, and what the bytes of a source decode to (R42, R46, R48 to R54, R76). -/

namespace Sys2Proof.Machine

/-! ### Command words (R48 to R51) -/

/-- Settles O2: the op selects the decoder's row, and only PUT's row reads `imm`. -/
theorem commandWordsFollowTheOpcodeMap : Obligations.CommandWordsFollowTheOpcodeMap := by
  intro w
  refine ⟨fun h => ?_, fun h => ?_, fun h => ?_, fun h => ?_, fun h => ?_, fun h => ?_, fun h => ?_, fun h => ?_⟩ <;>
    · rw [decodeCommand, h]
      rfl

/-! ### Control bytes (R42, R46) -/

/-- A legal width is one more than a 2-bit field (R42, R68). -/
theorem widthLegal_field {w : Nat} (h : widthLegal w = true) : ∃ f : Fin 4, w = f + 1 := by
  rcases widthLegal_cases h with rfl | rfl | rfl | rfl
  exacts [⟨0, rfl⟩, ⟨1, rfl⟩, ⟨2, rfl⟩, ⟨3, rfl⟩]

/-- The widths a control byte declares are the four it was packed from. -/
theorem dwidth_pack {w0 w1 w2 w3 : Nat} (h0 : widthLegal w0 = true) (h1 : widthLegal w1 = true)
    (h2 : widthLegal w2 = true) (h3 : widthLegal w3 = true) :
    dwidth (pack w0 w1 w2 w3) 0 = w0 ∧ dwidth (pack w0 w1 w2 w3) 1 = w1 ∧
      dwidth (pack w0 w1 w2 w3) 2 = w2 ∧ dwidth (pack w0 w1 w2 w3) 3 = w3 := by
  obtain ⟨f0, rfl⟩ := widthLegal_field h0
  obtain ⟨f1, rfl⟩ := widthLegal_field h1
  obtain ⟨f2, rfl⟩ := widthLegal_field h2
  obtain ⟨f3, rfl⟩ := widthLegal_field h3
  revert f0 f1 f2 f3
  decide

/-- Settles O3: each declared width is legal, and packing the declared widths gives the byte back. -/
theorem everyControlByteIsLegal : Obligations.EveryControlByteIsLegal := fun c =>
  ⟨by simp only [decodeControlByte, Instr.wellFormed, dwidth_legal, Bool.and_self],
    by simp only [decodeControlByte, encode, pack_dwidth]⟩

/-! ### Response words (R52) -/

theorem statusOfBits_statusBits (st : Status) : statusOfBits (statusBits st) = st := by cases st <;> rfl

/-- A response word is read back as the status and the payload it was built from. -/
theorem decodeResponse_responseWord (st : Status) (p : Word) : decodeResponse (responseWord st p) = .response st p := by
  rw [decodeResponse, responseWord_status, responseWord_payload, statusOfBits_statusBits]

/-- Settles O4: the status code selects the status, and the fields of a built word are its parts. -/
theorem responseWordLayout : Obligations.ResponseWordLayout := by
  refine ⟨fun w => ⟨fun h => ?_, fun h => ?_, fun h => ?_, fun h => ?_⟩,
    fun r => decodeResponse_responseWord r.status r.payload⟩ <;>
    · rw [decodeResponse, h]
      rfl

/-- Settles O35: the meaning of a response word is that it is sent. -/
theorem responseGoesToTheHost : Obligations.ResponseGoesToTheHost := fun _ _ _ => rfl

/-! ### The decoder inverts the encoder -/

/-- Settles O1: in each of the three formats the fields of an encoded word are the operands it was built from. -/
theorem decodeInvertsEncode : Obligations.DecodeInvertsEncode := by
  intro i hi
  cases i with
  | put v =>
    refine (decode_command _).trans ?_
    rw [decodeCommand, commandWord_op, commandWord_imm]
    rfl
  | flush | close | get | reserved011 | reserved101 | reserved110 | reserved111 =>
    refine (decode_command _).trans ?_
    rw [decodeCommand, commandWord_op]
    rfl
  | groupControlByte w0 w1 w2 w3 =>
    simp only [Instr.wellFormed, Bool.and_eq_true] at hi
    obtain ⟨⟨⟨h0, h1⟩, h2⟩, h3⟩ := hi
    obtain ⟨e0, e1, e2, e3⟩ := dwidth_pack h0 h1 h2 h3
    exact (decode_controlByte _).trans (by rw [decodeControlByte, e0, e1, e2, e3])
  | response st p => exact (decode_response _).trans (congrArg _ (decodeResponse_responseWord st p))

/-- Settles O5: nine closed words, decoded. -/
theorem specWordsDecode : Obligations.SpecWordsDecode := by
  unfold Obligations.SpecWordsDecode
  decide

/-! ### Refused words, and a flush of nothing (R50, R54) -/

/-- Settles O23: a reserved op has no unit of its own, so it is foreign on either port. -/
theorem reservedCommandsAreRefused : Obligations.ReservedCommandsAreRefused := by
  rintro i s (rfl | rfl | rfl | rfl) <;> exact enter_foreign nofun

/-- Settles O22: by the opcode map each such word is a reserved instruction, or one whose own port is the other. -/
theorem reservedAndForeignWordsAreRefused : Obligations.ReservedAndForeignWordsAreRefused := by
  intro w s op h
  obtain ⟨hput, hflush, hclose, h011, hget, h101, h110, h111⟩ := commandWordsFollowTheOpcodeMap w
  rcases h with h | h | h | h | ⟨hp, h⟩ | ⟨hp, h | h | h⟩
  · rw [h011 h]; exact reservedCommandsAreRefused _ s (.inl rfl)
  · rw [h101 h]; exact reservedCommandsAreRefused _ s (.inr (.inl rfl))
  · rw [h110 h]; exact reservedCommandsAreRefused _ s (.inr (.inr (.inl rfl)))
  · rw [h111 h]; exact reservedCommandsAreRefused _ s (.inr (.inr (.inr rfl)))
  · rw [hget h]; exact enter_foreign (by rw [hp]; decide)
  · rw [hput h]; exact enter_foreign (by rw [hp]; decide)
  · rw [hflush h]; exact enter_foreign (by rw [hp]; decide)
  · rw [hclose h]; exact enter_foreign (by rw [hp]; decide)

/-- With nothing pending a flush asks the sink nothing. -/
theorem flushAndRespond_nothing {s : State} (h : s.enc.count = 0) :
    flushAndRespond s = .next (s.respondOk .enc 0) := by
  rcases flushAndRespond_cases s with ⟨-, e⟩ | ⟨hne, -⟩ | ⟨_, hne, -⟩ | ⟨_, _, _, hne, -⟩
  · exact e
  all_goals exact absurd h hne

/-- Settles O18: FLUSH and CLOSE are the same entry to the same flush. -/
theorem flushAndCloseOfNothing : Obligations.FlushAndCloseOfNothing := by
  rintro i s (rfl | rfl) ⟨hp, hf⟩ h0 <;> exact (enter_ready hp hf).trans (flushAndRespond_nothing h0)

/-! ### One response per command (R48, R52) -/

/-- From `s` to `t` the host got one response more, from the unit behind `p`; what it has sent and the port addressed are as
they were. -/
def State.AnsweredBy (s : State) (p : Port) (t : State) : Prop :=
  (∃ r : Response, t.responses = s.responses ++ [r] ∧ r.port = p) ∧ t.pending = s.pending ∧ t.port = s.port

theorem State.afterRefusal_answeredBy (s : State) : s.AnsweredBy s.port s.afterRefusal := ⟨⟨_, rfl, rfl⟩, rfl, rfl⟩

theorem flushAndRespond_answeredBy {s t : State} (h : flushAndRespond s = .next t) : s.AnsweredBy .enc t := by
  rcases flushAndRespond_cases s with ⟨-, e⟩ | ⟨-, -, e⟩ | ⟨_, -, -, e⟩ | ⟨_, _, _, -, -, -, e⟩ <;> rw [e] at h <;>
    cases h <;> exact ⟨⟨_, rfl, rfl⟩, rfl, rfl⟩

theorem putBody_answeredBy {v : Word} {s t : State} (h : putBody v s = .next t) : s.AnsweredBy .enc t := by
  rcases putBody_cases v s with ⟨_, -, e⟩ | ⟨hv, -, e⟩ | ⟨-, e⟩ <;> rw [e] at h
  · cases h; exact ⟨⟨_, rfl, rfl⟩, rfl, rfl⟩
  · exact flushAndRespond_answeredBy (s := s.withEnc (s.enc.appended v hv)) h
  · cases h

theorem State.deliver_answeredBy (s : State) : s.AnsweredBy .dec s.deliver := by
  unfold State.deliver
  split <;> exact ⟨⟨_, rfl, rfl⟩, rfl, rfl⟩

theorem State.answerGroup_answeredBy {s t : State} {g : GroupRead} (h : s.answerGroup g = .next t) :
    s.AnsweredBy .dec t := by
  cases g with
  | silent => cases h
  | hardError r | cleanEnd d r => cases h; exact ⟨⟨_, rfl, rfl⟩, rfl, rfl⟩
  | group d r => cases h; exact State.deliver_answeredBy ((s.withSource r).withDec d)

theorem getBody_answeredBy {s t : State} (h : getBody s = .next t) : s.AnsweredBy .dec t := by
  by_cases hn : s.dec.rptr < s.dec.avail ∨ s.dec.finished = true
  · rw [getBody_noRead hn] at h
    cases h; exact s.deliver_answeredBy
  · obtain ⟨hb, hf⟩ := not_or.1 hn
    rw [getBody_reads hb (Bool.eq_false_of_not_eq_true hf)] at h
    exact State.answerGroup_answeredBy h

/-- The unit addressed answers once, whether it refuses or carries its own operation out. -/
theorem enter_answeredBy {home : Option Port} {body : State → Result} {s t : State}
    (h : enter home body s = .next t) (hb : ∀ p, home = some p → body s = .next t → s.AnsweredBy p t) :
    s.AnsweredBy s.port t := by
  rcases enter_cases home body s with ⟨e, -⟩ | ⟨hp, -, e⟩ <;> rw [e] at h
  · cases h; exact s.afterRefusal_answeredBy
  · exact hb s.port hp h

/-- A command that is answered gets one response, from the unit addressed. -/
theorem exec_answeredBy {i : Instr} {s t : State} (hi : isCommand i = true) (h : exec i s = .next t) :
    s.AnsweredBy s.port t := by
  cases i with
  | put v => exact enter_answeredBy h fun | _, rfl, hb => putBody_answeredBy hb
  | flush | close => exact enter_answeredBy h fun | _, rfl, hb => flushAndRespond_answeredBy hb
  | get => exact enter_answeredBy h fun | _, rfl, hb => getBody_answeredBy hb
  | reserved011 | reserved101 | reserved110 | reserved111 => exact enter_answeredBy h nofun
  | groupControlByte | response => cases hi

/-- Settles O45: the step carries the oldest command out, since one that is answered does not wait. -/
theorem oneResponsePerCommand : Obligations.OneResponsePerCommand := by
  intro s t p w es hp h
  have hc : carryOut (s.withPending es) (.command p w) = .next t := h
  obtain ⟨hr, hpend, -⟩ := exec_answeredBy (decodeCommand_isCommand w) h
  exact ⟨(step_oldest hp (by rw [hc, waitOf_next])).trans hc, hr, hpend⟩

/-! ### Every stream decodes (R46, R73, R86) -/

/-- Delivering answers OK or EOD. -/
theorem State.deliver_status (s : State) :
    ∃ r, s.deliver.responses = s.responses ++ [r] ∧ (r.status = .ok ∨ r.status = .eod) := by
  unfold State.deliver
  split
  · exact ⟨_, rfl, .inl rfl⟩
  · exact ⟨_, rfl, .inr rfl⟩

theorem State.deliver_fault (s : State) : s.deliver.dec.fault = s.dec.fault := by
  unfold State.deliver
  split <;> rfl

/-- Settles O31: an honest source neither falls silent nor answers `Err`, and every other group read is a value or the end
of the stream. -/
theorem everyStreamDecodes : Obligations.EveryStreamDecodes := by
  rintro s ⟨hp, hd⟩ hs
  have he : exec .get s = getBody s := enter_ready hp hd
  rw [he]
  by_cases hn : s.dec.rptr < s.dec.avail ∨ s.dec.finished = true
  · obtain ⟨r, hr, hst⟩ := s.deliver_status
    exact ⟨_, r, getBody_noRead hn, hr, hst, s.deliver_fault.trans hd, s.deliver_source ▸ hs⟩
  · obtain ⟨hb, hf⟩ := not_or.1 hn
    rcases getBody_reads_cases hb (Bool.eq_false_of_not_eq_true hf) hd with
      ⟨⟨as, m, hg, hm⟩, -⟩ | ⟨bs, a, r, d, n, st, p, -, hg, e, hcase⟩
    · obtain ⟨_, _, hread, -⟩ := (hs.gives hg).2.read
      cases hm.symm.trans hread
    · obtain ⟨herr, hr⟩ := hs.gives hg
      refine ⟨_, ⟨.dec, st, p⟩, e, rfl, ?_⟩
      rcases hcase with ⟨rfl, -⟩ | ⟨-, rfl, rfl⟩ | ⟨-, hd', ⟨-, rfl, -⟩ | ⟨-, rfl, -⟩ | ⟨-, rfl, -⟩⟩
      · simp at herr
      · exact ⟨.inr rfl, hd, hr⟩
      · exact ⟨.inl rfl, hd', hr⟩
      · exact ⟨.inl rfl, hd', hr⟩
      · exact ⟨.inr rfl, hd', hr⟩

/-! ### The control byte and its group (R42, R71, R76) -/

/-- The four registers after a whole group: the big-endian number of each slot's bytes. -/
theorem slotsFrom_slotOrder (b : Fin 4 → List Byte) (buf : Quad) :
    slotsFrom b slotOrder buf = ⟨BitVec.ofNat 32 (bigEndian (b 0)), BitVec.ofNat 32 (bigEndian (b 1)),
      BitVec.ofNat 32 (bigEndian (b 2)), BitVec.ofNat 32 (bigEndian (b 3))⟩ := by
  simp only [← foldl_accum_zero]
  rfl

/-- GET's own rule where a whole group must be read and is there: its four values are buffered, the first is delivered. -/
theorem getBody_fullGroup {s : State} {c : Byte} {b : Fin 4 → List Byte} {r : Source} (hn : s.dec.NeedGroup)
    (hb : ∀ k, (b k).length = dwidth c k) (hg : s.source.Gives (.byte c :: (slotOrder.flatMap b).map .byte) r) :
    getBody s = .next { s with
      dec := { s.dec with buf := slotsFrom b slotOrder s.dec.buf, avail := 4, rptr := 1 }
      source := r
      responses := s.responses ++ [⟨.dec, .ok, BitVec.ofNat 32 (bigEndian (b 0))⟩] } := by
  obtain ⟨-, hptr, hfin⟩ := hn
  have hfirst : (slotsFrom b slotOrder s.dec.buf).get 0 = BitVec.ofNat 32 (bigEndian (b 0)) := by
    rw [slotsFrom_slotOrder]; rfl
  rw [getBody_reads (by rw [hptr]; exact lt_irrefl _) hfin, readGroup_full hb hg, ← hfirst]
  exact congrArg _ (State.deliver_ok (k := 0) (show (0 : Fin 5) < 4 by decide) rfl)

/-- A control byte of legal widths that meets an unfaulted decoder is GET's own rule with that byte the next one its source
gives (log 12). -/
theorem execGroupControlByte_legal {w0 w1 w2 w3 : Nat} {s : State} (h0 : widthLegal w0 = true)
    (h1 : widthLegal w1 = true) (h2 : widthLegal w2 = true) (h3 : widthLegal w3 = true) (hd : s.dec.fault = false) :
    execGroupControlByte w0 w1 w2 w3 s = getBody ((s.withPort .dec).withSource (s.source.offer (pack w0 w1 w2 w3))) := by
  rw [execGroupControlByte, h0, h1, h2, h3]
  exact enter_ready rfl hd

/-- Settles O34: the byte declares the widths of the four slots whose bytes follow it. -/
theorem controlByteReadsItsGroup : Obligations.ControlByteReadsItsGroup := by
  intro s w0 w1 w2 w3 b0 b1 b2 b3 r h0 h1 h2 h3 l0 l1 l2 l3 hn hg
  have ⟨hd, _, hfin⟩ := hn
  obtain ⟨e0, e1, e2, e3⟩ := dwidth_pack h0 h1 h2 h3
  have hlen : ∀ k, (![b0, b1, b2, b3] k).length = dwidth (pack w0 w1 w2 w3) k := by
    simp [Fin.forall_fin_succ, *]
  have hbytes : slotOrder.flatMap ![b0, b1, b2, b3] = b0 ++ b1 ++ b2 ++ b3 := by simp [slotOrder]
  have hread := (execGroupControlByte_legal h0 h1 h2 h3 hd).trans
    (getBody_fullGroup (by exact hn) hlen (hbytes ▸ hg.offered (pack w0 w1 w2 w3)))
  exact ⟨_, hread, rfl, rfl, hfin, hd, slotsFrom_slotOrder .., rfl, rfl, rfl, rfl⟩

end Sys2Proof.Machine

/-! PROOFS. The statements of 40_enc_datapath: the width of a value, the control byte, the marshaller's bytes, and what a
flush cuts off a group (R55 to R59). -/

namespace Sys2Proof.Machine

/-! ### WIDTH (R55) -/

/-- A byte slice of a value is 0 exactly where its eight bits are, as a number. -/
theorem slice_eq_zero_iff (v : Word) (i : Nat) : v.extractLsb' i 8 = 0 ↔ v.toNat / 2 ^ i % 256 = 0 := by
  rw [← BitVec.toNat_inj, BitVec.extractLsb'_toNat, Nat.shiftRight_eq_div_pow]
  rfl

/-- The widths that hold a value are the ones from WIDTH up. -/
theorem width_le_iff {v : Word} {w : Nat} (hw : 1 ≤ w) : width v ≤ w ↔ v.toNat < 2 ^ (8 * w) := by
  have hv : v.toNat < 2 ^ 32 := v.isLt
  rcases lt_or_ge w 4 with h4 | h4
  · simp only [width, ne_eq, slice_eq_zero_iff]
    interval_cases w <;> split_ifs <;> omega
  · have hpow : 2 ^ 32 ≤ 2 ^ (8 * w) := Nat.pow_le_pow_right two_pos (by omega)
    exact iff_of_true ((width_le v).trans h4) (hv.trans_le hpow)

/-- Settles O6: WIDTH holds the value, and every width that holds it is at least WIDTH. -/
theorem widthIsLeast : Obligations.WidthIsLeast := fun v =>
  ⟨width_pos v, width_le v, (width_le_iff (width_pos v)).1 le_rfl, fun _ hw hv => (width_le_iff hw).2 hv⟩

/-! ### PACK (R56) -/

/-- A byte is the sum of its four fields, slot 0's in the most significant place. -/
theorem toNat_eq_sum_dwidth (c : Byte) :
    c.toNat = (dwidth c 0 - 1) * 64 + (dwidth c 1 - 1) * 16 + (dwidth c 2 - 1) * 4 + (dwidth c 3 - 1) := by
  have hc : c.toNat < 256 := c.isLt
  simp only [dwidth, field, BitVec.extractLsb'_toNat, Nat.shiftRight_eq_div_pow, Nat.add_sub_cancel]
  change c.toNat = c.toNat / 64 % 4 * 64 + c.toNat / 16 % 4 * 16 + c.toNat / 4 % 4 * 4 + c.toNat / 1 % 4
  omega

/-- Settles O7: the fields of the packed byte are the four widths less 1. -/
theorem packPlacesTheFields : Obligations.PackPlacesTheFields := by
  intro w0 w1 w2 w3 h0 h1 h2 h3
  obtain ⟨e0, e1, e2, e3⟩ := dwidth_pack h0 h1 h2 h3
  rw [toNat_eq_sum_dwidth, e0, e1, e2, e3]

/-! ### MARSHAL (R57) -/

theorem marshal_getElem? (v : Word) {w j : Nat} (h : j < w) :
    (marshal v w)[j]? = some (v.extractLsb' (8 * (w - 1 - j)) 8) := by
  induction w generalizing j with
  | zero => omega
  | succ w ih =>
    cases j with
    | zero => rfl
    | succ j =>
      rw [marshal, List.getElem?_cons_succ, ih (by omega)]
      congr 3
      omega

/-- The most significant byte that WIDTH counts is not `00`, unless it is the only one. -/
theorem topByte_ne_zero {v : Word} (h : 1 < width v) : v.extractLsb' (8 * (width v - 1)) 8 ≠ 0 := by
  unfold width at h ⊢
  split_ifs at h ⊢ with h4 h3 h2
  exacts [h4, h3, h2, absurd h (lt_irrefl _)]

/-- Settles O9: at the minimal width the first byte is the one WIDTH found to be the highest that is not `00`. -/
theorem marshalBytes : Obligations.MarshalBytes := by
  refine fun v w => ⟨marshal_length v w, fun j hj => marshal_getElem? v hj, fun hw => ?_⟩
  rw [marshal_getElem? v (width_pos v), ne_eq, Option.some_inj]
  exact topByte_ne_zero hw

/-! ### GROUPBYTES and TRUNC (R58, R59) -/

/-- Settles O12: each of the four widths is 1 to 4. -/
theorem groupLength : Obligations.GroupLength := by
  intro a b c d
  have ha := width_pos a; have hb := width_pos b; have hc := width_pos c; have hd := width_pos d
  have ha' := width_le a; have hb' := width_le b; have hc' := width_le c; have hd' := width_le d
  rw [groupBytes_length]
  omega

/-- The control byte of a group and the bytes of its first `n` values: what R59 keeps of it. -/
def Quad.kept (q : Quad) (n : Nat) : List Byte :=
  pack (width q.s0) (width q.s1) (width q.s2) (width q.s3) ::
    ([q.s0, q.s1, q.s2, q.s3].take n).flatMap fun v => marshal v (width v)

theorem Quad.kept_length (q : Quad) (n : Nat) :
    (q.kept n).length = 1 + (([q.s0, q.s1, q.s2, q.s3].take n).map width).sum := by
  simp only [Quad.kept, List.length_cons, List.length_flatMap, marshal_length]
  exact Nat.add_comm ..

/-- A padding slot is the value 0, so it gives the group one byte `00` and nothing else. -/
theorem groupBytes_padded (q : Quad) (n : Fin 5) :
    groupBytes (q.padded n).s0 (q.padded n).s1 (q.padded n).s2 (q.padded n).s3 =
      (q.padded n).kept n ++ List.replicate (4 - n) 0 := by
  fin_cases n <;> simp [groupBytes, Quad.kept, Quad.padded, List.replicate]

/-- TRUNC takes off exactly as many bytes as there are padding slots. -/
theorem trunc_append_replicate (l : List Byte) (n : Nat) : trunc (l ++ List.replicate (4 - n) 0) n = l := by
  rw [trunc, List.length_append, List.length_replicate, Nat.add_sub_cancel, List.take_left]

theorem Enc.flushBytes_eq_kept (e : Enc) : e.flushBytes = (e.slot.padded e.count).kept e.count := by
  rw [Enc.flushBytes, groupBytes_padded, trunc_append_replicate]

/-- Settles O13: the full group is what a flush writes and a byte `00` per padding slot; a pending value has a byte. -/
theorem truncationRemovesOnlyPadding : Obligations.TruncationRemovesOnlyPadding := by
  intro e he
  obtain ⟨n, hn⟩ := Nat.exists_eq_succ_of_ne_zero (Fin.val_ne_of_ne he)
  have hlen := (congrArg List.length e.flushBytes_eq_kept).trans (Quad.kept_length ..)
  refine ⟨e.flushBytes_eq_kept ▸ groupBytes_padded e.slot e.count, hlen, ?_⟩
  have hpos := width_pos (e.slot.padded e.count).s0
  rw [hlen, hn, List.take_succ_cons, List.map_cons, List.sum_cons]
  rw [hn] at hpos
  omega

end Sys2Proof.Machine

/-! PROOFS. The statements of 41_enc_operations: PUT, FLUSH and CLOSE before a sink that accepts and one that fails, what
they leave unchanged, and the encoding that a run of PUTs and a CLOSE writes (R61 to R67). -/

namespace Sys2Proof.Machine

/-! ### A faulted unit (R61, R74, R85) -/

/-- A faulted unit refuses every command, whichever unit the command belongs to. -/
theorem exec_faulted {i : Instr} {s : State} (hi : isCommand i = true) (hf : s.faultOf s.port = true) :
    exec i s = .next s.afterRefusal := by
  cases i with
  | put | flush | close | get | reserved011 | reserved101 | reserved110 | reserved111 => exact enter_faulted hf
  | groupControlByte | response => cases hi

/-- Settles O21: every command word stands for a command, and each command begins with the entry's checks. -/
theorem faultedUnitRefusesEveryCommand : Obligations.FaultedUnitRefusesEveryCommand := fun w _ hf =>
  exec_faulted (decodeCommand_isCommand w) hf

/-! ### CLOSE (R64) -/

/-- CLOSE has no rule of its own. -/
theorem exec_close (s : State) : exec .close s = exec .flush s := rfl

/-- Settles O19: a run that begins with CLOSE goes on from the state that FLUSH leaves. -/
theorem closeIsFlush : Obligations.CloseIsFlush := fun s =>
  ⟨exec_close s, fun v => by rw [execAll, execAll, exec_close]⟩

/-! ### The sink answers a write -/

/-- Bytes appended to the sink that has answered stand after what it held before. -/
theorem Sink.append_of_answer {k k' : Sink} {a : SinkAnswer} (h : k.answer = some (a, k')) (bs : List Byte) :
    k'.append bs = { k' with contents := k.contents ++ bs } := by
  rw [Sink.append, (Sink.answer_spec h).1]

/-- A flush of pending values whose write is accepted. -/
theorem flushAndRespond_ok {s : State} {k : Sink} (h0 : s.enc.count ≠ 0) (ha : s.sink.answer = some (.ok, k)) :
    flushAndRespond s = .next { s with
      enc := s.enc.pad.emptied
      sink := { k with contents := s.sink.contents ++ s.enc.flushBytes }
      responses := s.responses ++ [⟨.enc, .ok, BitVec.ofNat 32 s.enc.flushBytes.length⟩] } := by
  rcases flushAndRespond_cases s with ⟨hc, -⟩ | ⟨-, hn, -⟩ | ⟨k', -, hk, e⟩ | ⟨_, _, _, -, hk, -⟩
  · exact absurd hc h0
  · cases ha.symm.trans hn
  · cases ha.symm.trans hk
    rw [e, Sink.append_of_answer ha]
  · cases ha.symm.trans hk

/-- A flush of pending values whose write fails: the sink keeps a part of the bytes, from their start. -/
theorem flushAndRespond_fail {s : State} {k : Sink} (h0 : s.enc.count ≠ 0) (ha : s.sink.answer = some (.fail, k)) :
    ∃ (e : Enc) (p : List Byte) (w : Word) (n : Nat), e.fault = true ∧ p <+: s.enc.flushBytes ∧
      flushAndRespond s = .next { s with
        enc := e
        sink := { k with contents := s.sink.contents ++ p }
        responses := s.responses ++ [⟨.enc, .ioerr, w⟩]
        draws := n } := by
  rcases flushAndRespond_cases s with ⟨hc, -⟩ | ⟨-, hn, -⟩ | ⟨_, -, hk, -⟩ | ⟨k', d, w, -, hk, hd, e⟩
  · exact absurd hc h0
  · cases ha.symm.trans hn
  · cases ha.symm.trans hk
  · cases ha.symm.trans hk
    rw [Sink.append_of_answer ha] at e
    exact ⟨d, _, w, _, hd, List.take_prefix .., e⟩

/-! ### PUT, FLUSH and CLOSE on an unfaulted unit -/

/-- FLUSH and CLOSE on an unfaulted unit are DOFLUSH and its response. -/
theorem exec_flush_or_close {i : Instr} {s : State} (hi : i = .flush ∨ i = .close) (hr : s.EncReady) :
    exec i s = flushAndRespond s := by
  rcases hi with rfl | rfl <;> exact enter_ready hr.1 hr.2

/-- PUT below the fourth value only appends. -/
theorem exec_put_below {v : Word} {s : State} (hr : s.EncReady) (h : s.enc.count.val < 3) :
    exec (.put v) s = .next ((s.withEnc (s.enc.appended v (h.trans (by decide)))).respondOk .enc 0) := by
  refine (enter_ready hr.1 hr.2).trans ?_
  rcases putBody_cases v s with ⟨_, -, e⟩ | ⟨_, h3, -⟩ | ⟨h4, -⟩
  · exact e
  all_goals omega

/-- The fourth PUT appends and flushes. -/
theorem exec_put_fourth {v : Word} {s : State} (hr : s.EncReady) (h : s.enc.count.val = 3) :
    exec (.put v) s = flushAndRespond (s.withEnc (s.enc.appended v (h.trans_lt (by decide)))) := by
  refine (enter_ready hr.1 hr.2).trans ?_
  rcases putBody_cases v s with ⟨_, h3, -⟩ | ⟨_, -, e⟩ | ⟨h4, -⟩
  · omega
  · exact e
  · omega

/-- After an append there is a value to flush. -/
theorem Enc.appended_count_ne_zero (e : Enc) (v : Word) (h : e.count.val < 4) : (e.appended v h).count ≠ 0 := by
  obtain ⟨-, hcount, -⟩ := e.appended_spec v h
  intro h0
  rw [h0] at hcount
  cases hcount

/-- Settles O15: the new GVENC is the old one with the value appended. -/
theorem putAppends : Obligations.PutAppends := by
  intro v s hr h
  obtain ⟨hslot, hcount, hfault⟩ := s.enc.appended_spec v (h.trans (by decide))
  exact ⟨_, exec_put_below hr h, hslot, hcount, hfault.trans hr.2⟩

/-- Settles O16: the four values fill the group, so what is flushed is not cut. -/
theorem fourthPutWritesTheGroup : Obligations.FourthPutWritesTheGroup := by
  intro v s k hr h3 ha g
  have hb : (s.enc.appended v _).flushBytes = g := s.enc.flushBytes_appended v (h3.trans_lt (by decide)) h3
  rw [exec_put_fourth hr h3, flushAndRespond_ok (s.enc.appended_count_ne_zero v _) (by exact ha), ← hb]
  exact ⟨_, rfl, rfl, rfl, hr.2, rfl, rfl, rfl, rfl, rfl, rfl⟩

/-- Settles O17: with a value pending slot 0 is never padding. -/
theorem flushAndCloseWriteWhatIsPending : Obligations.FlushAndCloseWriteWhatIsPending := by
  intro i s k hi hr h0 ha n g bs
  have hb : s.enc.flushBytes = bs := by
    have hpos : 0 < s.enc.count.val := Nat.pos_of_ne_zero (Fin.val_ne_of_ne h0)
    simp only [Enc.flushBytes, Quad.padded, trunc, if_pos hpos]
    rfl
  rw [exec_flush_or_close hi hr, flushAndRespond_ok h0 ha, ← hb]
  exact ⟨_, rfl, rfl, rfl, hr.2, rfl, rfl, rfl, rfl, rfl, rfl⟩

/-- Settles O20: a fourth PUT writes by the same flush as FLUSH and CLOSE, from the buffer it has appended to. -/
theorem writeErrorLatchesTheFault : Obligations.WriteErrorLatchesTheFault := by
  intro i e s k hr ha hcase
  obtain ⟨h0, hexec⟩ : e.count ≠ 0 ∧ exec i s = flushAndRespond (s.withEnc e) := by
    rcases hcase with ⟨hi, h0, rfl⟩ | ⟨v, h, rfl, h3, rfl⟩
    · exact ⟨h0, exec_flush_or_close hi hr⟩
    · exact ⟨s.enc.appended_count_ne_zero v h, exec_put_fourth hr h3⟩
  obtain ⟨d, p, w, n, hd, hp, hfail⟩ := flushAndRespond_fail (s := s.withEnc e) h0 ha
  exact ⟨_, p, w, hexec.trans hfail, hd, hp, rfl, rfl, rfl, rfl, rfl, rfl⟩

/-! ### Frames (R25, R26, R62, R63) -/

/-- An answered operation of GVENC was refused, or the unit was ready and it ran its own rule. -/
theorem enterEnc_next {body : State → Result} {s t : State} (h : enter (some .enc) body s = .next t) :
    (¬ s.EncReady ∧ t = s.afterRefusal) ∨ (s.EncReady ∧ body s = .next t) := by
  by_cases hr : s.EncReady
  · exact .inr ⟨hr, (enter_ready hr.1 hr.2).symm.trans h⟩
  · rcases enter_own_next h with ht | ⟨hf, -⟩
    · exact .inl ⟨hr, ht⟩
    · have hp : s.port ≠ .enc := fun hp => hr ⟨hp, hf⟩
      rw [enter_foreign (by simpa using hp.symm)] at h
      cases h; exact .inl ⟨hr, rfl⟩

/-- What every command but GET leaves of GVDEC, its source and the host's side. -/
theorem exec_frame_of_ne_get {i : Instr} {s t : State} (hi : isCommand i = true) (hget : i ≠ .get)
    (h : exec i s = .next t) :
    t.dec = s.dec ∧ t.source = s.source ∧ t.pending = s.pending ∧ t.port = s.port ∧
      ∃ r, t.responses = s.responses ++ [r] ∧ r.port = s.port := by
  obtain ⟨hr, hpend, hport⟩ := exec_answeredBy hi h
  rcases exec_decSide h with hs | rfl | ⟨w0, w1, w2, w3, rfl⟩
  · obtain ⟨hdec, hsrc⟩ := Prod.ext_iff.1 hs
    exact ⟨hdec, hsrc, hpend, hport, hr⟩
  · exact absurd rfl hget
  · cases hi

/-- An answered flush of pending values makes one write, of which the sink gains a part from its start; then the buffer is
empty and its pending slots as they were, or the unit is faulted. -/
theorem flushAndRespond_frame {s t : State} (h0 : s.enc.count ≠ 0) (h : flushAndRespond s = .next t) :
    (∃ p, p <+: s.enc.flushBytes ∧ t.sink.contents = s.sink.contents ++ p ∧ t.sink.after = s.sink.after ∧
      t.sink.writes = s.sink.writes + 1) ∧
    (t.enc = s.enc.pad.emptied ∨ t.enc.fault = true) := by
  rcases flushAndRespond_cases s with ⟨hc, -⟩ | ⟨-, -, e⟩ | ⟨k, -, ha, -⟩ | ⟨k, _, _, -, ha, -⟩
  · exact absurd hc h0
  · cases e.symm.trans h
  all_goals obtain ⟨-, hafter, hwrites⟩ := Sink.answer_spec ha
  · cases (flushAndRespond_ok h0 ha).symm.trans h
    exact ⟨⟨_, List.prefix_rfl, rfl, hafter, hwrites⟩, .inl rfl⟩
  · obtain ⟨d, p, w, n, hd, hp, hfail⟩ := flushAndRespond_fail h0 ha
    cases hfail.symm.trans h
    exact ⟨⟨p, hp, rfl, hafter, hwrites⟩, .inr hd⟩

/-- Padding leaves the pending slots. -/
theorem Enc.pad_slot_get {e : Enc} {k : Fin 4} (h : k.val < e.count.val) : e.pad.slot.get k = e.slot.get k :=
  (Quad.get_padded ..).trans (if_pos h)

/-- Settles O36: a PUT is refused, appends only, or appends and flushes the four values. -/
theorem putFrame : Obligations.PutFrame := by
  intro v s t h
  obtain ⟨hdec, hsrc, hpend, hport, hresp⟩ := exec_frame_of_ne_get (i := .put v) rfl nofun h
  refine ⟨hdec, hsrc, hpend, hport, hresp, ?_⟩
  rcases enterEnc_next h with ⟨hr, rfl⟩ | ⟨hr, hb⟩
  · exact ⟨by rw [if_neg fun hc => hr hc.1], fun _ _ _ => rfl, fun _ => rfl⟩
  rcases putBody_cases v s with ⟨h4, h3, e⟩ | ⟨h4, h3, e⟩ | ⟨-, e⟩ <;> rw [e] at hb
  · cases hb
    refine ⟨by rw [if_neg fun hc => h3.ne hc.2]; rfl, fun _ k hk => ?_, fun hn => absurd hr hn⟩
    exact ((s.enc.appended_spec v h4).1 k).trans (if_neg hk)
  · obtain ⟨hsink, henc⟩ := flushAndRespond_frame (s.enc.appended_count_ne_zero v h4) hb
    refine ⟨by rwa [if_pos ⟨hr, h3⟩, ← s.enc.flushBytes_appended v h4 h3], fun hf k hk => ?_, fun hn => absurd hr hn⟩
    obtain ⟨hslot, hcount, -⟩ := s.enc.appended_spec v h4
    rcases henc with henc | hfault
    · calc t.enc.slot.get k = (s.enc.appended v h4).slot.get k := by
            rw [henc]; exact Enc.pad_slot_get (e := s.enc.appended v h4) (by omega)
        _ = s.enc.slot.get k := (hslot k).trans (if_neg hk)
    · cases hfault.symm.trans (hf.trans hr.2)
  · cases hb

/-- Settles O37: a FLUSH or CLOSE is refused, has nothing to do, or writes what is pending. -/
theorem flushAndCloseFrame : Obligations.FlushAndCloseFrame := by
  intro i s t hi h
  have he : exec .flush s = .next t := by rcases hi with rfl | rfl <;> exact h
  obtain ⟨hdec, hsrc, hpend, hport, hresp⟩ := exec_frame_of_ne_get (i := .flush) rfl nofun he
  refine ⟨hdec, hsrc, hpend, hport, hresp, ?_⟩
  rcases enterEnc_next he with ⟨hr, rfl⟩ | ⟨hr, hb⟩
  · exact ⟨by rw [if_neg fun hc => hr hc.1], fun _ _ _ => rfl, fun _ => rfl⟩
  by_cases h0 : s.enc.count = 0
  · rw [flushAndRespond_nothing h0] at hb
    cases hb
    exact ⟨by rw [if_neg fun hc => hc.2 h0]; rfl, fun _ _ _ => rfl, fun _ => rfl⟩
  · obtain ⟨hsink, henc⟩ := flushAndRespond_frame h0 hb
    refine ⟨by rwa [if_pos ⟨hr, h0⟩], fun hf k hk => ?_, fun hn => absurd hn (by simp [hr, h0])⟩
    rcases henc with henc | hfault
    · rw [henc]; exact Enc.pad_slot_get hk
    · cases hfault.symm.trans (hf.trans hr.2)

/-! ### The length of an encoding (R67) -/

theorem encodeStream_length (vs : List Word) :
    (encodeStream vs).length = (vs.length + 3) / 4 + (vs.map width).sum := by
  induction vs using encodeStream.induct with
  | case1 => rfl
  | case2 a => rw [encodeStream, trunc_one]; simp; omega
  | case3 a b => rw [encodeStream, trunc_two]; simp; omega
  | case4 a b c => rw [encodeStream, trunc_three]; simp; omega
  | case5 a b c d vs ih => simp [encodeStream, groupBytes_length, ih]; omega

/-- The widths of `n` values add up to `n` to `4n` bytes. -/
theorem sum_width_bounds (vs : List Word) :
    vs.length ≤ (vs.map width).sum ∧ (vs.map width).sum ≤ 4 * vs.length := by
  induction vs with
  | nil => exact ⟨le_rfl, le_rfl⟩
  | cons v vs ih =>
    have h1 := width_pos v
    have h4 := width_le v
    simp only [List.map_cons, List.sum_cons, List.length_cons]
    omega

/-- Settles O54: a 0 that fills up a group has width 1, and the group keeps its one control byte. -/
theorem encodedLength : Obligations.EncodedLength := by
  intro vs
  obtain ⟨hlow, hhigh⟩ := sum_width_bounds vs
  refine ⟨encodeStream_length vs, ?_, ?_, fun h1 h3 => ?_⟩
  · rw [encodeStream_length]; omega
  · rw [encodeStream_length]; omega
  · simp only [encodeStream_length, List.length_append, List.length_replicate, List.map_append, List.map_replicate,
      List.sum_append, List.sum_replicate, show width (0 : Word) = 1 from width_zero, smul_eq_mul]
    omega

/-! ### Whole groups and the rest (R66) -/

/-- The values of the whole groups at the front of `vs`. -/
def wholeGroups (vs : List Word) : List Word := vs.take (4 * (vs.length / 4))

/-- The 0 to 3 values behind the whole groups of `vs`. -/
def groupRest (vs : List Word) : List Word := vs.drop (4 * (vs.length / 4))

theorem wholeGroups_append_groupRest (vs : List Word) : wholeGroups vs ++ groupRest vs = vs := List.take_append_drop ..

theorem groupRest_length (vs : List Word) : (groupRest vs).length = vs.length % 4 := by
  rw [groupRest, List.length_drop]; omega

theorem wholeGroups_length (vs : List Word) : 4 ∣ (wholeGroups vs).length :=
  ⟨vs.length / 4, by rw [wholeGroups, List.length_take]; omega⟩

/-- Fewer than four values make no whole group. -/
theorem wholeGroups_short {vs : List Word} (h : vs.length < 4) : wholeGroups vs = [] ∧ groupRest vs = vs := by
  rw [wholeGroups, groupRest, Nat.div_eq_of_lt h]
  exact ⟨rfl, rfl⟩

/-- Whole groups leave no rest. -/
theorem wholeGroups_whole {vs : List Word} (h : 4 ∣ vs.length) : wholeGroups vs = vs ∧ groupRest vs = [] := by
  rw [wholeGroups, groupRest, Nat.mul_div_cancel' h]
  exact ⟨List.take_length, List.drop_length⟩

/-- Whole groups put first are the first whole groups. -/
theorem wholeGroups_append {vs : List Word} (ws : List Word) (h : 4 ∣ vs.length) :
    wholeGroups (vs ++ ws) = vs ++ wholeGroups ws ∧ groupRest (vs ++ ws) = groupRest ws := by
  have hlen : 4 * ((vs ++ ws).length / 4) = vs.length + 4 * (ws.length / 4) := by
    rw [List.length_append]; omega
  rw [wholeGroups, groupRest, hlen]
  exact ⟨List.take_length_add_append .., List.drop_length_add_append ..⟩

/-- Grouping `us` first and then what it left with `ws` gives the groups of all. -/
theorem wholeGroups_append_again (us ws : List Word) :
    wholeGroups (us ++ ws) = wholeGroups us ++ wholeGroups (groupRest us ++ ws) ∧
      groupRest (us ++ ws) = groupRest (groupRest us ++ ws) := by
  have h := wholeGroups_append (groupRest us ++ ws) (wholeGroups_length us)
  rwa [← List.append_assoc, wholeGroups_append_groupRest] at h

/-- Whole groups are encoded apart from what follows. -/
theorem encodeStream_append {vs : List Word} (ws : List Word) (h : 4 ∣ vs.length) :
    encodeStream (vs ++ ws) = encodeStream vs ++ encodeStream ws := by
  induction vs using encodeStream.induct with
  | case1 => rfl
  | case2 a | case3 a b | case4 a b c => simp at h
  | case5 a b c d vs ih =>
    have hvs : 4 ∣ vs.length := (Nat.dvd_add_left (dvd_refl 4)).1 h
    rw [encodeStream, List.append_assoc, ← ih hvs]
    rfl

/-! ### The values pending in GVENC (R12) -/

/-- The pending values, oldest first. -/
def Enc.pendingValues (e : Enc) : List Word := [e.slot.s0, e.slot.s1, e.slot.s2, e.slot.s3].take e.count

theorem Enc.pendingValues_length (e : Enc) : e.pendingValues.length = e.count := by
  rw [Enc.pendingValues, List.length_take]
  exact min_eq_left (Nat.le_of_lt_succ e.count.isLt)

theorem Enc.pendingValues_getElem? {e : Enc} {k : Fin 4} (h : k.val < e.count) :
    e.pendingValues[k.val]? = some (e.slot.get k) := by
  rw [Enc.pendingValues, List.getElem?_take_of_lt h]
  fin_cases k <;> rfl

/-- An appended value is the last of the pending ones. -/
theorem Enc.pendingValues_appended (e : Enc) (v : Word) (h : e.count.val < 4) :
    (e.appended v h).pendingValues = e.pendingValues ++ [v] := by
  obtain ⟨slot, n, f⟩ := e
  obtain ⟨n, hn⟩ := n
  change n < 4 at h
  interval_cases n <;> rfl

/-- What a flush writes is the encoding of the pending values. -/
theorem Enc.flushBytes_eq_encodeStream {e : Enc} (h0 : e.count ≠ 0) : e.flushBytes = encodeStream e.pendingValues := by
  obtain ⟨slot, n, f⟩ := e
  fin_cases n
  · exact absurd rfl h0
  · rfl
  · rfl
  · rfl
  · exact (trunc_four _).trans (List.append_nil _).symm

/-! ### Runs before a sink that accepts (R66) -/

/-- From `s` to `t` the sink has gained `bs` and still accepts, GVENC is still ready, the host got `n` responses, all OK and
with payloads that add up to the number of bytes gained, and GVDEC and its source are as they were. -/
structure State.Wrote (s : State) (bs : List Byte) (n : Nat) (t : State) : Prop where
  contents : t.sink.contents = s.sink.contents ++ bs
  accepts : t.sink.Accepts
  ready : t.EncReady
  dec : t.dec = s.dec
  source : t.source = s.source
  responses : ∃ rs, t.responses = s.responses ++ rs ∧ rs.length = n ∧ (∀ r ∈ rs, r.status = .ok) ∧
    (rs.map fun r => r.payload.toNat).sum = bs.length

theorem State.Wrote.refl {s : State} (hr : s.EncReady) (ha : s.sink.Accepts) : s.Wrote [] 0 s :=
  ⟨(List.append_nil _).symm, ha, hr, rfl, rfl, [], (List.append_nil _).symm, rfl, nofun, rfl⟩

/-- What two runs wrote, one after the other, and how often they were answered adds up. -/
theorem State.Wrote.trans {s m t : State} {bs bs' : List Byte} {n n' : Nat} (h : s.Wrote bs n m)
    (h' : m.Wrote bs' n' t) : s.Wrote (bs ++ bs') (n + n') t := by
  obtain ⟨rs, hr, hn, hok, hsum⟩ := h.responses
  obtain ⟨rs', hr', hn', hok', hsum'⟩ := h'.responses
  exact {
    contents := by rw [h'.contents, h.contents, List.append_assoc]
    accepts := h'.accepts
    ready := h'.ready
    dec := h'.dec.trans h.dec
    source := h'.source.trans h.source
    responses := ⟨rs ++ rs', by rw [hr', hr, List.append_assoc], by rw [List.length_append, hn, hn'],
      List.forall_mem_append.2 ⟨hok, hok'⟩, by
        rw [List.map_append, List.sum_append, hsum, hsum', List.length_append]⟩ }

/-- One response OK whose payload is the number of bytes gained, a number that fits it. -/
theorem State.Wrote.of_response {s t : State} {bs : List Byte} {p : Port} (hc : t.sink.contents = s.sink.contents ++ bs)
    (ha : t.sink.Accepts) (hr : t.EncReady) (hd : t.dec = s.dec) (hs : t.source = s.source)
    (hres : t.responses = s.responses ++ [⟨p, .ok, BitVec.ofNat 32 bs.length⟩]) (hfit : bs.length < 2 ^ 32) :
    s.Wrote bs 1 t :=
  ⟨hc, ha, hr, hd, hs, _, hres, rfl, by simp, by simpa using hfit⟩

/-- What GVENC held at the start of a run is no part of what the run wrote. -/
theorem State.Wrote.of_withEnc {s t : State} {e : Enc} {bs : List Byte} {n : Nat} (h : (s.withEnc e).Wrote bs n t) :
    s.Wrote bs n t :=
  ⟨h.contents, h.accepts, h.ready, h.dec, h.source, h.responses⟩

/-- An encoding of at most a group's values has a length that fits a response's payload. -/
theorem encodeStream_length_lt {vs : List Word} (h : vs.length ≤ 4) : (encodeStream vs).length < 2 ^ 32 := by
  have hsum := (sum_width_bounds vs).2
  rw [encodeStream_length]
  omega

/-- Before an accepting sink a flush writes the encoding of the pending values, none or some, and leaves nothing pending. -/
theorem flushAndRespond_wrote {s : State} (hr : s.EncReady) (ha : s.sink.Accepts) :
    ∃ t, flushAndRespond s = .next t ∧ s.Wrote (encodeStream s.enc.pendingValues) 1 t ∧ t.enc.count = 0 := by
  have hlen := s.enc.pendingValues_length
  by_cases h0 : s.enc.count = 0
  · have hnil : s.enc.pendingValues = [] := List.length_eq_zero_iff.1 (hlen.trans (congrArg Fin.val h0))
    rw [hnil]
    exact ⟨_, flushAndRespond_nothing h0,
      .of_response (List.append_nil _).symm ha hr rfl rfl rfl (by decide), h0⟩
  · obtain ⟨k, hk, hacc, -⟩ := ha.answer
    rw [flushAndRespond_ok h0 hk, Enc.flushBytes_eq_encodeStream h0]
    exact ⟨_, rfl, .of_response rfl hacc hr rfl rfl rfl (encodeStream_length_lt (by omega)), rfl⟩

/-- Before an accepting sink a PUT writes the whole group it completes, if it does, and leaves the rest pending. -/
theorem exec_put_wrote (v : Word) {s : State} (hr : s.EncReady) (hc : s.enc.count.val ≤ 3) (ha : s.sink.Accepts) :
    ∃ t, exec (.put v) s = .next t ∧ s.Wrote (encodeStream (wholeGroups (s.enc.pendingValues ++ [v]))) 1 t ∧
      t.enc.pendingValues = groupRest (s.enc.pendingValues ++ [v]) := by
  have hvals := s.enc.pendingValues_appended v (Nat.lt_succ_of_le hc)
  have hlen : (s.enc.pendingValues ++ [v]).length = s.enc.count + 1 := by
    rw [List.length_append, s.enc.pendingValues_length]; rfl
  rcases hc.lt_or_eq with h3 | h3
  · obtain ⟨hwhole, hrest⟩ := wholeGroups_short (vs := s.enc.pendingValues ++ [v]) (by omega)
    rw [exec_put_below hr h3, hwhole, hrest]
    exact ⟨_, rfl, .of_response (List.append_nil _).symm ha hr rfl rfl rfl (by decide), hvals⟩
  · obtain ⟨hwhole, hrest⟩ := wholeGroups_whole (vs := s.enc.pendingValues ++ [v]) (by rw [hlen, h3])
    obtain ⟨t, ht, hw, h0⟩ := flushAndRespond_wrote (s := s.withEnc (s.enc.appended v (Nat.lt_succ_of_le hc))) hr ha
    refine ⟨t, (exec_put_fourth hr h3).trans ht, ?_, ?_⟩
    · rw [hwhole, ← hvals]
      exact hw.of_withEnc
    · rw [hrest, Enc.pendingValues, h0]
      rfl

/-- PUTs before an accepting sink write the whole groups of what was pending and is put, and leave the rest pending. -/
theorem execAll_puts_wrote (vs : List Word) {s : State} (hr : s.EncReady) (hc : s.enc.count.val ≤ 3)
    (ha : s.sink.Accepts) :
    ∃ t, execAll (vs.map .put) s = .next t ∧
      s.Wrote (encodeStream (wholeGroups (s.enc.pendingValues ++ vs))) vs.length t ∧
      t.enc.pendingValues = groupRest (s.enc.pendingValues ++ vs) := by
  have hlen := s.enc.pendingValues_length
  induction vs generalizing s with
  | nil =>
    obtain ⟨hwhole, hrest⟩ := wholeGroups_short (vs := s.enc.pendingValues) (by omega)
    rw [List.append_nil, hwhole, hrest]
    exact ⟨s, rfl, .refl hr ha, rfl⟩
  | cons v vs ih =>
    obtain ⟨m, hm, hwm, hpm⟩ := exec_put_wrote v hr hc ha
    have hlenm := m.enc.pendingValues_length
    have hcm : m.enc.count.val ≤ 3 := by
      rw [← hlenm, hpm, groupRest_length]; omega
    obtain ⟨t, ht, hwt, hpt⟩ := ih hwm.ready hcm hwm.accepts hlenm
    obtain ⟨hwhole, hrest⟩ := wholeGroups_append_again (s.enc.pendingValues ++ [v]) vs
    rw [List.append_cons, hwhole, hrest, encodeStream_append _ (wholeGroups_length _), ← hpm, List.length_cons,
      Nat.add_comm]
    exact ⟨t, by rw [List.map_cons, execAll, hm]; exact ht, hwm.trans hwt, hpt⟩

/-- Settles O55: the rest that the PUTs leave pending is what the last flush encodes. -/
theorem putsThenCloseWriteTheEncoding : Obligations.PutsThenCloseWriteTheEncoding := by
  intro vs s hr h0 ha
  have hnil : s.enc.pendingValues = [] := by rw [Enc.pendingValues, h0]; rfl
  obtain ⟨m, hm, hwm, hpm⟩ := execAll_puts_wrote vs hr (by rw [h0]; decide) ha
  rw [hnil, List.nil_append] at hwm hpm
  have hcm : m.enc.count.val = vs.length % 4 := by rw [← m.enc.pendingValues_length, hpm, groupRest_length]
  obtain ⟨t, ht, hwt, h0t⟩ := flushAndRespond_wrote hwm.ready hwm.accepts
  have hw := hwm.trans hwt
  rw [hpm, ← encodeStream_append _ (wholeGroups_length vs), wholeGroups_append_groupRest] at hw
  obtain ⟨rs, hres, hn, hok, hsum⟩ := hw.responses
  have hslots : ∀ k : Fin 4, k.val < vs.length % 4 →
      some (m.enc.slot.get k) = vs[4 * (vs.length / 4) + k.val]? := fun k hk => by
    rw [← Enc.pendingValues_getElem? (hcm ▸ hk), hpm, groupRest, List.getElem?_drop]
  exact ⟨m, t, rs, hm, hwm.contents, hcm, hslots, (exec_flush_or_close (.inr rfl) hwm.ready).trans ht,
    (exec_flush_or_close (.inl rfl) hwm.ready).trans ht, hw.contents, h0t, hw.ready.2, hw.dec, hw.source, hres, hn, hok,
    hsum⟩

end Sys2Proof.Machine

/-! PROOFS. The statements of 42_dec_datapath: the control-byte parser, the accumulator, the byte lanes, the end-of-stream
detector, and the group that end-of-data cuts short (R68 to R71, R76). -/

namespace Sys2Proof.Machine

/-! ### The control-byte parser (R68) -/

theorem field_toNat (c : Byte) (k : Fin 4) : (field c k).toNat = c.toNat / 2 ^ (6 - 2 * k.val) % 4 := by
  rw [field, BitVec.extractLsb'_toNat, Nat.shiftRight_eq_div_pow]

/-- Settles O8: a field is a 2-bit slice, and the widths packed are the widths declared. -/
theorem dwidthInvertsPack : Obligations.DwidthInvertsPack :=
  ⟨fun c k => ⟨field_toNat c k, rfl⟩, fun _ _ _ _ => dwidth_pack⟩

/-! ### The accumulator (R69) -/

/-- Up to four bytes fit a word. -/
theorem bigEndian_lt_word {bs : List Byte} (h : bs.length ≤ 4) : bigEndian bs < 2 ^ 32 :=
  (bigEndian_lt bs).trans_le (Nat.pow_le_pow_right (n := 256) (by decide) h)

theorem foldl_accum_zero_toNat {bs : List Byte} (h : bs.length ≤ 4) : (bs.foldl accum 0).toNat = bigEndian bs := by
  rw [foldl_accum_zero, BitVec.toNat_ofNat, Nat.mod_eq_of_lt (bigEndian_lt_word h)]

/-- Assembling the marshaller's bytes gives the value back, at every width that holds it. -/
theorem foldl_accum_marshal {v : Word} {w : Nat} (h : v.toNat < 256 ^ w) : (marshal v w).foldl accum 0 = v := by
  rw [foldl_accum_zero, bigEndian_marshal, Nat.mod_eq_of_lt h, BitVec.ofNat_toNat, BitVec.setWidth_eq]

theorem two_pow_eight_mul (w : Nat) : 2 ^ (8 * w) = 256 ^ w := pow_mul 2 8 w

/-- Settles O10: each byte multiplies what was there by 256, and four bytes lose no bit. -/
theorem accumulatorIsBigEndian : Obligations.AccumulatorIsBigEndian :=
  ⟨accum_eq, fun _ h => foldl_accum_zero_toNat h, fun _ w _ hv => foldl_accum_marshal (two_pow_eight_mul w ▸ hv)⟩

/-! ### The byte lanes (R70) -/

/-- A byte steered above the lanes in use adds its place value: no lane is driven twice. -/
theorem lanes_toNat {bs : List Byte} (h : bs.length ≤ 4) : (lanes bs).toNat = bigEndian bs := by
  induction bs with
  | nil => rfl
  | cons b bs ih =>
    have hlow : bigEndian bs < 2 ^ (8 * bs.length) := two_pow_eight_mul _ ▸ bigEndian_lt bs
    have hshift : b.toNat <<< (8 * bs.length) < 2 ^ 32 := by
      have hfit := bigEndian_lt_word h
      rw [bigEndian] at hfit
      rw [Nat.shiftLeft_eq, two_pow_eight_mul]
      omega
    have hb : (b.setWidth 32).toNat = b.toNat := BitVec.toNat_setWidth_of_le (by decide)
    rw [lanes, BitVec.toNat_or, BitVec.toNat_shiftLeft, hb, Nat.mod_eq_of_lt hshift, ih (Nat.le_of_succ_le h),
      ← Nat.shiftLeft_add_eq_or_of_lt hlow, Nat.shiftLeft_eq, two_pow_eight_mul, bigEndian]

/-- The first byte is what stands above the others' place values. -/
theorem bigEndian_cons_div (b : Byte) (bs : List Byte) : bigEndian (b :: bs) / 256 ^ bs.length = b.toNat := by
  rw [bigEndian, Nat.add_comm, Nat.add_mul_div_right _ _ (Nat.pow_pos (by decide)), Nat.div_eq_of_lt (bigEndian_lt bs),
    Nat.zero_add]

/-- Byte lists of one length that stand for the same number are equal. -/
theorem bigEndian_inj {bs cs : List Byte} (hl : bs.length = cs.length) (h : bigEndian bs = bigEndian cs) : bs = cs := by
  induction bs generalizing cs with
  | nil => exact (List.eq_nil_of_length_eq_zero hl.symm).symm
  | cons b bs ih =>
    obtain ⟨c, cs, rfl⟩ := List.exists_cons_of_length_eq_add_one hl.symm
    have hl' : bs.length = cs.length := Nat.succ.inj hl
    have hhead : b = c := BitVec.eq_of_toNat_eq <| by
      rw [← bigEndian_cons_div b bs, h, hl', bigEndian_cons_div]
    rw [bigEndian, bigEndian, hhead, hl'] at h
    rw [hhead, ih hl' (Nat.add_left_cancel h)]

/-- Marshalling the steered value gives the bytes back. -/
theorem marshal_lanes {bs : List Byte} (h : bs.length ≤ 4) : marshal (lanes bs) bs.length = bs :=
  bigEndian_inj (marshal_length _ _) (by rw [bigEndian_marshal, lanes_toNat h, Nat.mod_eq_of_lt (bigEndian_lt bs)])

/-- Settles O11: steering and shifting give the same number, and its bytes are the marshaller's. -/
theorem lanesEqualAccumulator : Obligations.LanesEqualAccumulator := by
  intro bs h
  have haccum : lanes bs = bs.foldl accum 0 :=
    BitVec.eq_of_toNat_eq ((lanes_toNat h).trans (foldl_accum_zero_toNat h).symm)
  refine ⟨haccum, fun j hj => ?_, fun l hl _ => ?_⟩
  · rw [← marshal_getElem? _ hj, marshal_lanes h]
  · have hlt : bigEndian bs < 2 ^ (8 * l) :=
      (bigEndian_lt bs).trans_le (two_pow_eight_mul l ▸ Nat.pow_le_pow_right (by decide) hl)
    rw [slice_eq_zero_iff, lanes_toNat h, Nat.div_eq_of_lt hlt]

/-! ### The end-of-stream detector (R71) -/

/-- Settles O14: only end-of-data is judged by where the read was issued. -/
theorem endOfStreamVerdicts : Obligations.EndOfStreamVerdicts :=
  ⟨fun p _ => by cases p <;> rfl, rfl, fun _ => rfl, fun p => by cases p <;> rfl⟩

/-! ### The group that end-of-data cuts short (R71, R76) -/

/-- A slot that was read holds its bytes' number; the others are as they were. -/
theorem slotsFrom_get (b : Fin 4 → List Byte) (ks : List (Fin 4)) (buf : Quad) (j : Fin 4) :
    (slotsFrom b ks buf).get j = if j ∈ ks then BitVec.ofNat 32 (bigEndian (b j)) else buf.get j := by
  induction ks generalizing buf with
  | nil => rfl
  | cons k ks ih =>
    have hstep : slotsFrom b (k :: ks) buf = slotsFrom b ks (buf.set k (BitVec.ofNat 32 (bigEndian (b k)))) := by
      rw [← foldl_accum_zero]; rfl
    rw [hstep, ih, Quad.get_set]
    by_cases hjk : j = k
    · subst hjk; simp
    · simp [hjk]

/-- The slots read before slot `k` are the ones below it. -/
theorem mem_slotOrder_take {j k : Fin 4} : j ∈ slotOrder.take k.val ↔ j < k := by
  revert j k; decide

/-- GVDEC after end-of-data in slot `k`, before it delivers: the slots before `k` are available. -/
def Dec.cutShort (d : Dec) (b : Fin 4 → List Byte) (k : Fin 4) : Dec :=
  { d with buf := slotsFrom b (slotOrder.take k.val) d.buf, avail := k.castSucc, rptr := 0, finished := true }

theorem Dec.cutShort_get (d : Dec) (b : Fin 4 → List Byte) (k j : Fin 4) :
    (d.cutShort b k).buf.get j = if j < k then BitVec.ofNat 32 (bigEndian (b j)) else d.buf.get j := by
  rw [Dec.cutShort, slotsFrom_get]
  simp only [mem_slotOrder_take]

/-- GET's own rule where end-of-data comes in slot `k`. -/
theorem getBody_shortGroup {s : State} {c : Byte} {b : Fin 4 → List Byte} {k : Fin 4} {part : List Byte} {r : Source}
    (hn : s.dec.NeedGroup) (hb : ∀ j, j < k → (b j).length = dwidth c j) (hp : part.length < dwidth c k)
    (hg : s.source.Gives (.byte c :: (((slotOrder.take k.val).flatMap b ++ part).map .byte ++ [.eod])) r) :
    getBody s = .next ((s.withSource r).withDec (s.dec.cutShort b k)).deliver := by
  obtain ⟨-, hptr, hfin⟩ := hn
  rw [getBody_reads (by rw [hptr]; exact lt_irrefl _) hfin, readGroup_stopped hb hp rfl hg]
  rfl

/-- Settles O28: with no slot complete there is nothing to deliver, and otherwise slot 0 is delivered. -/
theorem getReadsShortGroup : Obligations.GetReadsShortGroup := by
  intro s c b k part r hport hn hb hp hg
  have ⟨hd, _, _⟩ := hn
  have hget : exec .get s = .next ((s.withSource r).withDec (s.dec.cutShort b k)).deliver :=
    (enter_ready hport hd).trans (getBody_shortGroup hn hb hp hg)
  have hread : ∀ j, j < k → (s.dec.cutShort b k).buf.get j = BitVec.ofNat 32 (bigEndian (b j)) := fun j hj => by
    rw [Dec.cutShort_get, if_pos hj]
  have hkept : ∀ j, k ≤ j → (s.dec.cutShort b k).buf.get j = s.dec.buf.get j := fun j hj => by
    rw [Dec.cutShort_get, if_neg (not_lt.2 hj)]
  by_cases hk : k = 0
  · subst hk
    rw [State.deliver_none (show ¬ (0 : Fin 5) < 0 by decide)] at hget
    exact ⟨_, hget, rfl, rfl, hd, hread, hkept, rfl, ⟨rfl, _, rfl⟩, rfl, rfl, rfl, rfl⟩
  · have hpos : 0 < k := Fin.pos_of_ne_zero hk
    rw [State.deliver_ok (k := 0) (show (0 : Fin 5) < k.castSucc from hpos) rfl] at hget
    refine ⟨_, hget, rfl, rfl, hd, hread, hkept, rfl, ?_, rfl, rfl, rfl, rfl⟩
    rw [if_neg hk, ← hread 0 hpos]
    exact ⟨rfl, rfl⟩

end Sys2Proof.Machine

/-! PROOFS. The statements of 43_dec_operations: GET on a buffered value, at the end of the source, on a whole group and on
a read error, what it leaves unchanged, and the decoding that a run of GETs delivers (R74 to R80). -/

namespace Sys2Proof.Machine

/-! ### GET on an unfaulted decoder (R74, R75) -/

/-- GET on an unfaulted decoder is GET's own rule. -/
theorem exec_get_ready {s : State} (hr : s.DecReady) : exec .get s = getBody s := enter_ready hr.1 hr.2

/-- A decoder in NeedGroup answers what its group read comes to. -/
theorem exec_get_needGroup {s : State} (hp : s.port = .dec) (hn : s.dec.NeedGroup) :
    exec .get s = s.answerGroup (s.dec.readGroup s.source) := by
  obtain ⟨hd, hptr, hfin⟩ := hn
  exact (exec_get_ready ⟨hp, hd⟩).trans (getBody_reads hptr.not_lt hfin)

/-- Settles O25: a buffered value comes before everything else. -/
theorem getDeliversBuffered : Obligations.GetDeliversBuffered := by
  rintro s k hp ⟨hd, hlt⟩ hk
  rw [exec_get_ready ⟨hp, hd⟩, getBody_buffered hlt, State.deliver_ok hlt hk]

/-- Settles O26: the mark that EndOfData sets is set already. -/
theorem getExhausted : Obligations.GetExhausted := by
  rintro s hp ⟨hd, hptr, hfin⟩
  have hmark : { s.dec with finished := true } = s.dec := by rw [← hfin]
  rw [exec_get_ready ⟨hp, hd⟩, getBody_finished hptr.not_lt hfin, State.raise_endOfData, hmark]
  exact ⟨_, rfl⟩

/-- Settles O29: the verdict on end-of-data at the control byte is a clean end. -/
theorem getMeetsCleanEnd : Obligations.GetMeetsCleanEnd := by
  intro s r hp hn hg
  rw [exec_get_needGroup hp hn, readGroup_atControl rfl hg]
  exact ⟨_, rfl⟩

/-- Settles O27: the four registers hold the slots' numbers, and the first is delivered. -/
theorem getReadsFullGroup : Obligations.GetReadsFullGroup := by
  intro s c b r hp hn hb hg
  have ⟨hd, _, hfin⟩ := hn
  refine ⟨_, (exec_get_ready ⟨hp, hd⟩).trans (getBody_fullGroup hn hb hg), rfl, rfl, hfin, hd, fun k => ?_⟩
  rw [slotsFrom_get, if_pos (by revert k; decide)]

/-- Settles O30: `Err` is a hard error wherever in the group the read was issued. -/
theorem readErrorLatchesTheFault : Obligations.ReadErrorLatchesTheFault := by
  intro s as r hp hn has hg
  have hread : s.dec.readGroup s.source = .hardError r := by
    rcases has with rfl | ⟨c, b, k, part, hb, hpart, rfl⟩
    · exact readGroup_atControl rfl hg
    · exact readGroup_stopped hb hpart rfl hg
  obtain ⟨d, p, hfault, hraise⟩ := (s.withSource r).raise_readError
  rw [exec_get_needGroup hp hn, hread, State.answerGroup, hraise]
  exact ⟨_, p, rfl, hfault, rfl, rfl, rfl, rfl, rfl, rfl⟩

/-! ### Frames (R25, R75, R76) -/

/-- Delivering leaves the values and how many there are; where none is left, the mark was set already. -/
theorem State.deliver_dec {s : State} (h : s.dec.rptr < s.dec.avail ∨ s.dec.finished = true) :
    s.deliver.dec.buf = s.dec.buf ∧ s.deliver.dec.avail = s.dec.avail ∧ s.deliver.dec.finished = s.dec.finished := by
  by_cases hlt : s.dec.rptr < s.dec.avail
  · obtain ⟨k, hk⟩ := Dec.rptr_castSucc hlt
    rw [State.deliver_ok hlt hk]
    exact ⟨rfl, rfl, rfl⟩
  · rw [State.deliver_none hlt]
    exact ⟨rfl, rfl, (h.resolve_left hlt).symm⟩

/-- An answered group read leaves what stands past the values it made available, unless it ended in a fault. -/
theorem getBody_reads_frame {s t : State} (hb : ¬ s.dec.rptr < s.dec.avail) (hf : s.dec.finished = false)
    (hd : s.dec.fault = false) (h : getBody s = .next t) :
    t.source.after = s.source.after ∧
      (t.dec.fault = false → ∀ k : Fin 4, t.dec.avail.val ≤ k.val → t.dec.buf.get k = s.dec.buf.get k) := by
  rcases getBody_reads_cases hb hf hd with ⟨-, e⟩ | ⟨_, _, r, d, _, _, _, -, hg, e, hcase⟩ <;> rw [e] at h <;> cases h
  refine ⟨hg.spec.1, fun hfault => ?_⟩
  rcases hcase with ⟨-, -, herr⟩ | ⟨-, -, rfl⟩ | ⟨hkept, -⟩
  · cases herr.symm.trans hfault
  · exact fun _ _ => rfl
  · exact hkept

/-- An answered GET was refused, read a group, or delivered without a read. -/
theorem exec_get_next {s t : State} (h : exec .get s = .next t) :
    (¬ s.DecReady ∧ t = s.afterRefusal) ∨
      (s.DecReady ∧ ¬ s.dec.rptr < s.dec.avail ∧ s.dec.finished = false ∧ getBody s = .next t) ∨
      ((s.dec.rptr < s.dec.avail ∨ s.dec.finished = true) ∧ t = s.deliver) := by
  have he : enter (some .dec) getBody s = .next t := h
  rcases enter_cases (some .dec) getBody s with ⟨e, hfault⟩ | ⟨hp, hd, e⟩ <;> rw [e] at he
  · cases he
    exact .inl ⟨fun ⟨hp, hd⟩ => by simp [hp, State.faultOf, hd] at hfault, rfl⟩
  · have hp : s.port = .dec := (Option.some.inj hp).symm
    rw [hp] at hd
    by_cases hn : s.dec.rptr < s.dec.avail ∨ s.dec.finished = true
    · rw [getBody_noRead hn] at he
      cases he; exact .inr (.inr ⟨hn, rfl⟩)
    · obtain ⟨hb, hf⟩ := not_or.1 hn
      exact .inr (.inl ⟨⟨hp, hd⟩, hb, Bool.eq_false_of_not_eq_true hf, he⟩)

/-- Settles O38: only a group read reaches the source or the values. -/
theorem getFrame : Obligations.GetFrame := by
  intro s t h
  obtain ⟨hr, hpend, hport⟩ := exec_answeredBy (i := .get) rfl h
  obtain ⟨henc, hsink⟩ := Prod.ext_iff.1 ((exec_encSide h).resolve_right (by simp))
  refine ⟨henc, hsink, hpend, hport, hr, ?_⟩
  rcases exec_get_next h with ⟨hnot, rfl⟩ | ⟨hready, hb, hf, he⟩ | ⟨hn, rfl⟩
  · rw [if_neg fun hc => hnot hc.1]
    exact ⟨rfl, rfl, rfl, rfl, rfl⟩
  · rw [if_pos ⟨hready, hb, hf⟩]
    exact getBody_reads_frame hb hf hready.2 he
  · rw [if_neg fun ⟨_, hb, hf⟩ => hn.elim hb (by simp [hf])]
    obtain ⟨hbuf, havail, hfin⟩ := State.deliver_dec hn
    exact ⟨s.deliver_source, hbuf, havail, hfin, s.deliver_fault⟩

/-- Settles O39: the control byte is a GET whose source gives that byte next (log 12). -/
theorem controlByteFrame : Obligations.ControlByteFrame := by
  intro w0 w1 w2 w3 s t h
  have hframe := getFrame ((s.withPort .dec).withSource (s.source.offer (pack w0 w1 w2 w3))) t
    (execGroupControlByte_next h)
  simpa [State.DecReady, Source.offer] using hframe

/-! ### DECODE, group by group (R79) -/

/-- With all their bytes there, the slots `ks` are taken, and the taking goes on behind them. -/
theorem takeSlots_append {c : Byte} {b : Fin 4 → List Byte} {ks : List (Fin 4)} (ws : List Nat) (rest : List Byte)
    (hb : ∀ k ∈ ks, (b k).length = dwidth c k) :
    takeSlots (ks.map (dwidth c) ++ ws) (ks.flatMap b ++ rest) =
      (ks.map (fun k => BitVec.ofNat 32 (bigEndian (b k))) ++ (takeSlots ws rest).1, (takeSlots ws rest).2) := by
  induction ks with
  | nil => rfl
  | cons k ks ih =>
    have hk : (b k).length = dwidth c k := hb k List.mem_cons_self
    rw [List.map_cons, List.cons_append, List.flatMap_cons, List.append_assoc, ← hk, takeSlots,
      if_pos (by rw [List.length_append]; exact Nat.le_add_right ..), List.drop_left, List.take_left,
      ih fun j hj => hb j (List.mem_cons_of_mem _ hj)]
    rfl

/-- DECODE's loop takes the four values of a whole group and goes on behind it. -/
theorem decodeGroups_full {c : Byte} {b : Fin 4 → List Byte} (n : Nat) (rest : List Byte)
    (hb : ∀ k, (b k).length = dwidth c k) :
    decodeGroups (n + 1) (c :: (slotOrder.flatMap b ++ rest)) =
      slotOrder.map (fun k => BitVec.ofNat 32 (bigEndian (b k))) ++ decodeGroups n rest := by
  have htake := takeSlots_append (ks := slotOrder) [] rest fun k _ => hb k
  have hwidths : slotOrder.map (dwidth c) ++ [] = widths c := rfl
  rw [hwidths] at htake
  rw [decodeGroups, htake]
  simp [takeSlots]

/-- DECODE's loop ends in a group that is cut in slot `k`, with the values of the slots before it. -/
theorem decodeGroups_cut {c : Byte} {b : Fin 4 → List Byte} {k : Fin 4} {part : List Byte} (n : Nat)
    (hb : ∀ j, j < k → (b j).length = dwidth c j) (hp : part.length < dwidth c k) :
    decodeGroups (n + 1) (c :: ((slotOrder.take k.val).flatMap b ++ part)) =
      (slotOrder.take k.val).map (fun j => BitVec.ofNat 32 (bigEndian (b j))) := by
  have htake := takeSlots_append (dwidth c k :: (slotOrder.drop (k.val + 1)).map (dwidth c)) part
    fun j hj => hb j (mem_slotOrder_take.1 hj)
  have hsplit : ∀ k : Fin 4, slotOrder = slotOrder.take k.val ++ k :: slotOrder.drop (k.val + 1) := by decide
  have hwidths : (slotOrder.take k.val).map (dwidth c) ++ dwidth c k :: (slotOrder.drop (k.val + 1)).map (dwidth c) =
      widths c := by
    rw [← List.map_cons, ← List.map_append, ← hsplit k]; rfl
  rw [hwidths, takeSlots, if_neg (not_le.2 hp), List.append_nil] at htake
  rw [decodeGroups, htake]

/-- The slots up to `k` are those before it and `k`. -/
theorem slotOrder_take_succ (k : Fin 4) : slotOrder.take (k.val + 1) = slotOrder.take k.val ++ [k] := by
  revert k; decide

/-- Below slot `n` the bytes behind a control byte fill their slots, or they end in one of them. -/
theorem slots_full_or_cut (c : Byte) (body : List Byte) {n : Nat} (hn : n ≤ 4) :
    (∃ (b : Fin 4 → List Byte) (rest : List Byte), (∀ j : Fin 4, j.val < n → (b j).length = dwidth c j) ∧
      body = (slotOrder.take n).flatMap b ++ rest) ∨
    ∃ (b : Fin 4 → List Byte) (k : Fin 4) (part : List Byte), (∀ j, j < k → (b j).length = dwidth c j) ∧
      part.length < dwidth c k ∧ body = (slotOrder.take k.val).flatMap b ++ part := by
  induction n with
  | zero => exact .inl ⟨fun _ => [], body, nofun, rfl⟩
  | succ n ih =>
    rcases ih (Nat.le_of_succ_le hn) with ⟨b, rest, hb, hbody⟩ | hcut
    · obtain ⟨k, rfl⟩ : ∃ k : Fin 4, k.val = n := ⟨⟨n, hn⟩, rfl⟩
      rcases lt_or_ge rest.length (dwidth c k) with hlt | hge
      · exact .inr ⟨b, k, rest, hb, hlt, hbody⟩
      · refine .inl ⟨Function.update b k (rest.take (dwidth c k)), rest.drop (dwidth c k), fun j hj => ?_, ?_⟩
        · rcases Fin.lt_or_eq_of_le (Nat.le_of_lt_succ hj : j ≤ k) with hlt | rfl
          · rw [Function.update_of_ne hlt.ne]; exact hb j hlt
          · rw [Function.update_self, List.length_take_of_le hge]
        · have hbelow : (slotOrder.take k.val).flatMap (Function.update b k (rest.take (dwidth c k))) =
              (slotOrder.take k.val).flatMap b := List.flatMap_congr fun j hj =>
            Function.update_of_ne (mem_slotOrder_take.1 hj).ne ..
          rw [slotOrder_take_succ, List.flatMap_append, hbelow, List.flatMap_singleton, Function.update_self,
            List.append_assoc, List.take_append_drop, hbody]
    · exact .inr hcut

/-- What stands behind a control byte: a whole group and the rest, or a group cut in slot `k`. -/
theorem group_full_or_cut (c : Byte) (body : List Byte) :
    (∃ (b : Fin 4 → List Byte) (rest : List Byte), (∀ k, (b k).length = dwidth c k) ∧
      body = slotOrder.flatMap b ++ rest) ∨
    ∃ (b : Fin 4 → List Byte) (k : Fin 4) (part : List Byte), (∀ j, j < k → (b j).length = dwidth c j) ∧
      part.length < dwidth c k ∧ body = (slotOrder.take k.val).flatMap b ++ part :=
  (slots_full_or_cut c body le_rfl).imp_left fun ⟨b, rest, hb, hbody⟩ => ⟨b, rest, fun k => hb k k.isLt, hbody⟩

/-- As many groups as the stream has bytes are all of them. -/
theorem decodeGroups_eq_decodeStream {n : Nat} {bs : List Byte} (h : bs.length ≤ n) :
    decodeGroups n bs = decodeStream bs := by
  suffices hall : ∀ m, bs.length ≤ m → decodeGroups n bs = decodeGroups m bs from hall _ le_rfl
  induction n generalizing bs with
  | zero =>
    obtain rfl := List.length_eq_zero_iff.1 (Nat.le_zero.1 h)
    intro m _
    cases m <;> rfl
  | succ n ih =>
    intro m hm
    cases bs with
    | nil => cases m <;> rfl
    | cons c body =>
      obtain ⟨m, rfl⟩ : ∃ m', m = m' + 1 := Nat.exists_eq_add_one.2 ((Nat.succ_pos _).trans_le hm)
      rcases group_full_or_cut c body with ⟨b, rest, hb, rfl⟩ | ⟨b, k, part, hb, hp, rfl⟩
      · rw [decodeGroups_full n rest hb, decodeGroups_full m rest hb]
        simp only [List.length_cons, List.length_append] at h hm
        rw [ih (by omega) m (by omega)]
      · rw [decodeGroups_cut n hb hp, decodeGroups_cut m hb hp]

/-- DECODE of a whole group and what follows it. -/
theorem decodeStream_full {c : Byte} {b : Fin 4 → List Byte} (rest : List Byte) (hb : ∀ k, (b k).length = dwidth c k) :
    decodeStream (c :: (slotOrder.flatMap b ++ rest)) =
      slotOrder.map (fun k => BitVec.ofNat 32 (bigEndian (b k))) ++ decodeStream rest := by
  rw [decodeStream, List.length_cons, decodeGroups_full _ rest hb, decodeGroups_eq_decodeStream]
  rw [List.length_append]
  exact Nat.le_add_left ..

/-- DECODE of a group cut in slot `k`. -/
theorem decodeStream_cut {c : Byte} {b : Fin 4 → List Byte} {k : Fin 4} {part : List Byte}
    (hb : ∀ j, j < k → (b j).length = dwidth c j) (hp : part.length < dwidth c k) :
    decodeStream (c :: ((slotOrder.take k.val).flatMap b ++ part)) =
      (slotOrder.take k.val).map (fun j => BitVec.ofNat 32 (bigEndian (b j))) := by
  rw [decodeStream, List.length_cons, decodeGroups_cut _ hb hp]

/-! ### DECODE inverts ENCODE (R80) -/

/-- The control byte of the four values `q`. -/
def controlOf (q : Fin 4 → Word) : Byte := pack (width (q 0)) (width (q 1)) (width (q 2)) (width (q 3))

/-- The bytes of slot `k` in the group of the four values `q`. -/
def slotBytes (q : Fin 4 → Word) (k : Fin 4) : List Byte := marshal (q k) (width (q k))

theorem groupBytes_eq_slots (a b c d : Word) :
    groupBytes a b c d = controlOf ![a, b, c, d] :: slotOrder.flatMap (slotBytes ![a, b, c, d]) := by
  simp [groupBytes, slotOrder, controlOf, slotBytes]

theorem width_legal (v : Word) : widthLegal (width v) = true := by
  simp [widthLegal, width_pos, width_le]

/-- A slot has as many bytes as its group's control byte declares. -/
theorem slotBytes_length (q : Fin 4 → Word) (k : Fin 4) : (slotBytes q k).length = dwidth (controlOf q) k := by
  obtain ⟨h0, h1, h2, h3⟩ :=
    dwidth_pack (width_legal (q 0)) (width_legal (q 1)) (width_legal (q 2)) (width_legal (q 3))
  rw [slotBytes, marshal_length]
  fin_cases k
  exacts [h0.symm, h1.symm, h2.symm, h3.symm]

/-- A slot's big-endian number is its value, which its width holds. -/
theorem slotBytes_value (q : Fin 4 → Word) (k : Fin 4) : BitVec.ofNat 32 (bigEndian (slotBytes q k)) = q k := by
  have hfit : (q k).toNat < 2 ^ (8 * width (q k)) := (width_le_iff (width_pos _)).1 le_rfl
  rw [slotBytes, ← foldl_accum_zero, foldl_accum_marshal (two_pow_eight_mul _ ▸ hfit)]

/-- DECODE of the group of `q`, cut behind the slots before `k`. -/
theorem decodeStream_slots_take (q : Fin 4 → Word) (k : Fin 4) :
    decodeStream (controlOf q :: (slotOrder.take k.val).flatMap (slotBytes q)) = (slotOrder.take k.val).map q := by
  have hpos : ([] : List Byte).length < dwidth (controlOf q) k := Nat.succ_pos _
  have h := decodeStream_cut (fun j _ => slotBytes_length q j) hpos
  rw [List.append_nil] at h
  simpa only [slotBytes_value] using h

/-- DECODE gives back the values that ENCODE was given: group by group, the last one cut or not. -/
theorem decodeStream_encodeStream (vs : List Word) : decodeStream (encodeStream vs) = vs := by
  induction vs using encodeStream.induct with
  | case1 => rfl
  | case2 a =>
    rw [encodeStream, trunc_one]
    simpa [slotOrder, controlOf, slotBytes] using decodeStream_slots_take ![a, 0, 0, 0] 1
  | case3 a b =>
    rw [encodeStream, trunc_two]
    simpa [slotOrder, controlOf, slotBytes] using decodeStream_slots_take ![a, b, 0, 0] 2
  | case4 a b c =>
    rw [encodeStream, trunc_three]
    simpa [slotOrder, controlOf, slotBytes] using decodeStream_slots_take ![a, b, c, 0] 3
  | case5 a b c d vs ih =>
    rw [encodeStream, groupBytes_eq_slots, List.cons_append, decodeStream_full _ (slotBytes_length _), ih]
    simp only [slotBytes_value]
    rfl

/-- Settles O57: a control byte alone is not the encoding of no value, and a cut group in the middle takes the next group's
control byte for a slot. -/
theorem decodeInvertsEncodeOnStreams : Obligations.DecodeInvertsEncodeOnStreams :=
  ⟨decodeStream_encodeStream, ⟨[0], by decide⟩, ⟨[0], [0], by decide⟩⟩

/-! ### What a decoder still holds (R16, R20, R79) -/

/-- The values buffered and not yet delivered. -/
def Dec.buffered (d : Dec) : List Word := ((slotOrder.take d.avail.val).drop d.rptr.val).map d.buf.get

/-- The first of the buffered values is the one at the read pointer. -/
theorem Dec.buffered_cons {d : Dec} {k : Fin 4} (h : d.rptr < d.avail) (hk : d.rptr = k.castSucc) :
    d.buffered = d.buf.get k :: Dec.buffered { d with rptr := k.succ } := by
  have hdrop : ∀ (k : Fin 4) (n : Fin 5), k.castSucc < n →
      (slotOrder.take n.val).drop k.val = k :: (slotOrder.take n.val).drop (k.val + 1) := by decide
  rw [hk] at h
  simp only [Dec.buffered, hk, Fin.val_castSucc, hdrop k _ h]
  rfl

theorem Dec.buffered_nil {d : Dec} (h : d.avail ≤ d.rptr) : d.buffered = [] := by
  have hlen : (slotOrder.take d.avail.val).length ≤ d.rptr.val :=
    (List.length_take_le ..).trans (Fin.le_def.1 h)
  rw [Dec.buffered, List.drop_eq_nil_of_le hlen, List.map_nil]

/-- From `s` on, GETs have the values `vs` to deliver and then end-of-data: an unfaulted decoder, what it has buffered, and
behind that nothing if its source has ended, or else DECODE of the bytes that the source will still give. -/
structure State.Holds (s : State) (vs : List Word) : Prop where
  ready : s.DecReady
  le : s.dec.rptr ≤ s.dec.avail
  ahead : (s.dec.finished = true ∧ vs = s.dec.buffered) ∨
    (s.dec.finished = false ∧ ∃ (bs : List Byte) (r : Source), s.source.Gives (bs.map .byte ++ [.eod]) r ∧
      vs = s.dec.buffered ++ decodeStream bs)

/-- In NeedGroup, on a source that gives `bs` and then end-of-data, the decoder holds DECODE of `bs`. -/
theorem State.Holds.of_needGroup {s : State} {bs : List Byte} {r : Source} (hp : s.port = .dec) (hn : s.dec.NeedGroup)
    (hg : s.source.Gives (bs.map .byte ++ [.eod]) r) : s.Holds (decodeStream bs) := by
  obtain ⟨hd, hptr, hfin⟩ := hn
  exact ⟨⟨hp, hd⟩, hptr.le, .inr ⟨hfin, bs, r, hg, by rw [Dec.buffered_nil hptr.ge]; rfl⟩⟩

/-- GVDEC after a whole group, before it delivers. -/
def Dec.filled (d : Dec) (b : Fin 4 → List Byte) : Dec :=
  { d with buf := slotsFrom b slotOrder d.buf, avail := 4, rptr := 0 }

theorem Dec.filled_buffered (d : Dec) (b : Fin 4 → List Byte) :
    (d.filled b).buffered = slotOrder.map (fun k => BitVec.ofNat 32 (bigEndian (b k))) :=
  List.map_congr_left fun k hk => (slotsFrom_get b slotOrder d.buf k).trans (if_pos hk)

theorem Dec.cutShort_buffered (d : Dec) (b : Fin 4 → List Byte) (k : Fin 4) :
    (d.cutShort b k).buffered = (slotOrder.take k.val).map (fun j => BitVec.ofNat 32 (bigEndian (b j))) :=
  List.map_congr_left fun j hj => (d.cutShort_get b k j).trans (if_pos (mem_slotOrder_take.1 hj))

/-- A group read moves values from the source into the buffer and changes nothing of what is held. -/
theorem getBody_needGroup_holds {s : State} {bs : List Byte} {r : Source} (hp : s.port = .dec) (hn : s.dec.NeedGroup)
    (hg : s.source.Gives (bs.map .byte ++ [.eod]) r) :
    ∃ m : State, getBody s = .next m.deliver ∧ m.Holds (decodeStream bs) ∧ m.responses = s.responses ∧
      (m.dec.rptr < m.dec.avail ∨ m.dec.finished = true) := by
  have ⟨hd, hptr, hfin⟩ := hn
  have hbody : getBody s = s.answerGroup (s.dec.readGroup s.source) := getBody_reads hptr.not_lt hfin
  cases bs with
  | nil =>
    have hnil : s.dec.markFinished.buffered = [] := Dec.buffered_nil hptr.ge
    refine ⟨(s.withSource r).withDec s.dec.markFinished, ?_, ⟨⟨hp, hd⟩, hptr.le, .inl ⟨rfl, hnil.symm⟩⟩, rfl, .inr rfl⟩
    rw [hbody, readGroup_atControl rfl hg, State.deliver_none (by exact hptr.not_lt)]
    rfl
  | cons c body =>
    rcases group_full_or_cut c body with ⟨b, rest, hb, rfl⟩ | ⟨b, k, part, hb, hpart, rfl⟩
    · rw [List.map_cons, List.map_append, ← List.cons_append, List.append_assoc, Source.gives_append] at hg
      obtain ⟨n, hgroup, hrest⟩ := hg
      have hheld : decodeStream (c :: (slotOrder.flatMap b ++ rest)) = (s.dec.filled b).buffered ++ decodeStream rest := by
        rw [decodeStream_full rest hb, Dec.filled_buffered]
      refine ⟨(s.withSource n).withDec (s.dec.filled b), ?_, ⟨⟨hp, hd⟩, Fin.zero_le _, .inr ⟨hfin, rest, r, hrest, hheld⟩⟩,
        rfl, .inl (show (0 : Fin 5) < 4 by decide)⟩
      rw [hbody, readGroup_full hb hgroup]
      rfl
    · have hheld := (decodeStream_cut hb hpart).trans (s.dec.cutShort_buffered b k).symm
      exact ⟨_, getBody_shortGroup hn hb hpart hg, ⟨⟨hp, hd⟩, Fin.zero_le _, .inl ⟨rfl, hheld⟩⟩, rfl, .inr rfl⟩

/-- What a GET answers a decoder that holds values, after the responses `rs`: OK with the first of them, the others still
held, or EOD when there is none. -/
inductive GetAnswered (rs : List Response) : List Word → State → Prop where
  | value {t : State} {v : Word} {vs : List Word} (hr : t.responses = rs ++ [⟨.dec, .ok, v⟩]) (ht : t.Holds vs) :
    GetAnswered rs (v :: vs) t
  | ended {t : State} (p : Word) (hr : t.responses = rs ++ [⟨.dec, .eod, p⟩]) (ht : t.Holds []) : GetAnswered rs [] t

/-- Delivering answers with the first of the values held, once there is a buffered one or the source has ended. -/
theorem State.Holds.deliver {s : State} {vs : List Word} (h : s.Holds vs)
    (hn : s.dec.rptr < s.dec.avail ∨ s.dec.finished = true) : GetAnswered s.responses vs s.deliver := by
  by_cases hlt : s.dec.rptr < s.dec.avail
  · obtain ⟨k, hk⟩ := Dec.rptr_castSucc hlt
    have hle : k.succ ≤ s.dec.avail := Fin.castSucc_lt_iff_succ_le.1 (hk ▸ hlt)
    rw [State.deliver_ok hlt hk]
    rcases h.ahead with ⟨hfin, rfl⟩ | ⟨hfin, bs, r, hg, rfl⟩ <;> rw [Dec.buffered_cons hlt hk]
    · exact .value rfl ⟨h.ready, hle, .inl ⟨hfin, rfl⟩⟩
    · exact .value rfl ⟨h.ready, hle, .inr ⟨hfin, bs, r, hg, rfl⟩⟩
  · have hfin := hn.resolve_left hlt
    have hnil := Dec.buffered_nil (not_lt.1 hlt)
    rcases h.ahead with ⟨-, rfl⟩ | ⟨hf, -⟩
    · rw [State.deliver_none hlt, hnil]
      exact .ended _ rfl ⟨h.ready, h.le, .inl ⟨rfl, hnil.symm⟩⟩
    · cases hf.symm.trans hfin

/-- A GET answers with the first of the values held. -/
theorem State.Holds.get {s : State} {vs : List Word} (h : s.Holds vs) :
    ∃ t, exec .get s = .next t ∧ GetAnswered s.responses vs t := by
  rw [exec_get_ready h.ready]
  by_cases hn : s.dec.rptr < s.dec.avail ∨ s.dec.finished = true
  · exact ⟨_, getBody_noRead hn, h.deliver hn⟩
  · obtain ⟨hb, hf⟩ := not_or.1 hn
    have hptr : s.dec.rptr = s.dec.avail := le_antisymm h.le (not_lt.1 hb)
    rcases h.ahead with ⟨hfin, -⟩ | ⟨hfin, bs, r, hg, rfl⟩
    · exact absurd hfin hf
    · obtain ⟨m, hm, hheld, hres, hmn⟩ := getBody_needGroup_holds h.ready.1 ⟨h.ready.2, hptr, hfin⟩ hg
      rw [Dec.buffered_nil hptr.ge, List.nil_append]
      exact ⟨_, hm, hres ▸ hheld.deliver hmn⟩

/-- As many GETs as there are values held answer OK with these values in order. -/
theorem State.Holds.gets {s : State} {vs : List Word} (h : s.Holds vs) :
    ∃ t, execAll (List.replicate vs.length .get) s = .next t ∧
      t.responses = s.responses ++ vs.map (fun v => ⟨.dec, .ok, v⟩) ∧ t.Holds [] := by
  induction vs generalizing s with
  | nil => exact ⟨s, rfl, (List.append_nil _).symm, h⟩
  | cons v vs ih =>
    obtain ⟨m, hm, ⟨hr, hheld⟩ | _⟩ := h.get
    obtain ⟨t, ht, hrt, hend⟩ := ih hheld
    exact ⟨t, by rw [List.length_cons, List.replicate_succ, execAll, hm]; exact ht,
      by rw [hrt, hr, List.append_assoc]; rfl, hend⟩

/-- With no value held any number of GETs answer EOD. -/
theorem State.Holds.gets_ended {s : State} (h : s.Holds []) (n : Nat) :
    ∃ (t : State) (ps : List Word), execAll (List.replicate n .get) s = .next t ∧ ps.length = n ∧
      t.responses = s.responses ++ ps.map (fun p => ⟨.dec, .eod, p⟩) := by
  induction n generalizing s with
  | zero => exact ⟨s, [], rfl, rfl, (List.append_nil _).symm⟩
  | succ n ih =>
    obtain ⟨m, hm, _ | ⟨p, hr, hheld⟩⟩ := h.get
    obtain ⟨t, ps, ht, hlen, hrt⟩ := ih hheld
    exact ⟨t, p :: ps, by rw [List.replicate_succ, execAll, hm]; exact ht, congrArg Nat.succ hlen,
      by rw [hrt, hr, List.append_assoc]; rfl⟩

/-- Settles O56: in NeedGroup the decoder holds the decoding of what its source will give. -/
theorem getsDeliverTheDecoding : Obligations.GetsDeliverTheDecoding := by
  intro bs s r hp hn hg
  obtain ⟨t, ht, hr, hend⟩ := (State.Holds.of_needGroup hp hn hg).gets
  exact ⟨t, ht, hr, hend.gets_ended⟩

/-! ### The round trip on the machine (R39, R66, R79, R80) -/

/-- One instruction after others that were carried out. -/
theorem execAll_snoc {is : List Instr} {i : Instr} {s m : State} (h : execAll is s = .next m) :
    execAll (is ++ [i]) s = execAll [i] m := by
  induction is generalizing s with
  | nil => cases h; rfl
  | cons j js ih =>
    rw [execAll] at h
    rw [List.cons_append, execAll]
    cases hj : exec j s with
    | next n => rw [hj] at h; exact ih h
    | fault | refused => rw [hj] at h; cases h

theorem execAll_singleton {i : Instr} {s t : State} (h : exec i s = .next t) : execAll [i] s = .next t := by
  rw [execAll, h]; rfl

/-- Settles O58: the sink has gained the encoding, and a decoder reset onto it holds the decoding of that. -/
theorem roundTripOnTheMachine : Obligations.RoundTripOnTheMachine := by
  intro vs s hr h0 ha
  obtain ⟨m, t, rs, hm, -, -, -, ht, -, hsink, -⟩ := putsThenCloseWriteTheEncoding vs s hr h0 ha
  refine ⟨t, (execAll_snoc hm).trans (execAll_singleton ht), ?_⟩
  rw [hsink, List.drop_left]
  intro d
  have hheld : d.Holds vs := decodeStream_encodeStream vs ▸
    .of_needGroup rfl ⟨rfl, rfl, rfl⟩ (Source.ofBytes_gives (encodeStream vs))
  obtain ⟨u, hu, hru, hend⟩ := hheld.gets
  obtain ⟨w, hw, _ | ⟨p, hrw, -⟩⟩ := hend.get
  exact ⟨u, w, p, hu, hru, hw, hrw⟩

end Sys2Proof.Machine

/-! PROOFS. The statements of 70_reset_and_hazards: resets, commands before streams that answer and streams that fall silent,
the good ends of an encoder run and of a decoder run, and the hazard streams (R73, R96, R98, R99, R108). -/

namespace Sys2Proof.Machine

/-! ### Resets and the spec's own streams (R73, R96, R98, R99) -/

/-- Settles O46: a reset is carried out whatever the streams would answer, so the step takes it. -/
theorem resetEvents : Obligations.ResetEvents :=
  ⟨fun _ _ _ hp => ⟨Enc.reset, step_oldest hp rfl, rfl, rfl⟩,
    fun _ _ _ hp => ⟨Dec.reset, step_oldest hp rfl, rfl, rfl, rfl, rfl⟩⟩

/-- Settles O59: four closed streams, encoded and decoded. -/
theorem hazardStreams : Obligations.HazardStreams := by
  unfold Obligations.HazardStreams
  decide

/-! ### Streams that fall silent (R108) -/

/-- Before a sink that never answers, values pending cannot be flushed. -/
theorem flushAndRespond_silent {s : State} (h0 : s.enc.count ≠ 0) (ha : s.sink.answer = none) :
    flushAndRespond s = .fault .sinkSilent := by
  rcases flushAndRespond_cases s with ⟨hc, -⟩ | ⟨-, -, e⟩ | ⟨_, -, hk, -⟩ | ⟨_, _, _, -, hk, -⟩
  · exact absurd hc h0
  · exact e
  all_goals cases ha.symm.trans hk

/-- A sink that never answers has no listed answer left and none after them. -/
theorem Sink.answer_eq_none_iff {k : Sink} : k.answer = none ↔ k.answers = [] ∧ k.after = .silent := by
  obtain ⟨c, as, af, n⟩ := k
  cases as <;> cases af <;> simp [Sink.answer]

/-- A source that never answers has no listed answer left and none after them. -/
theorem Source.read_eq_none_iff {r : Source} : r.read = none ↔ r.answers = [] ∧ r.after = .silent := by
  obtain ⟨as, af, n⟩ := r
  cases as <;> cases af <;> simp [Source.read]

/-- GET's own rule where the group read gets no answer. -/
theorem getBody_silent {s : State} (hn : s.dec.NeedGroup) (hg : s.dec.readGroup s.source = .silent) :
    getBody s = .fault .sourceSilent := by
  obtain ⟨-, hptr, hfin⟩ := hn
  rw [getBody_reads hptr.not_lt hfin, hg]
  rfl

/-- Settles O24: a needed write, and a read of any byte of the group, waits for its answer. -/
theorem silentStreamsHang : Obligations.SilentStreamsHang := by
  refine ⟨fun s hr ha => ⟨fun v h3 => ?_, fun h0 => ?_⟩, fun s as m hp hn has hg hm => ?_, ?_⟩
  · exact (exec_put_fourth hr h3).trans (flushAndRespond_silent (s.enc.appended_count_ne_zero v _) ha)
  · have hflush : exec .flush s = .fault .sinkSilent :=
      (exec_flush_or_close (.inl rfl) hr).trans (flushAndRespond_silent h0 ha)
    exact ⟨hflush, (exec_close s).trans hflush⟩
  · refine (exec_get_ready ⟨hp, hn.1⟩).trans (getBody_silent hn ?_)
    rcases has with rfl | ⟨c, b, k, part, hb, hpart, rfl⟩
    · obtain rfl : m = s.source := hg
      exact readGroup_silentAtControl hm
    · exact readGroup_silent hb hpart hg hm
  · intro s w0 w1 w2 w3 b k part m h0 h1 h2 h3 c hn hb hpart hg hm
    have hsilent := Source.read_eq_none_iff.1 hm
    exact (execGroupControlByte_legal h0 h1 h2 h3 hn.1).trans <| getBody_silent (by exact hn) <|
      readGroup_silent hb hpart (hg.offered c) (Source.read_eq_none_iff.2 hsilent)

/-! ### Streams that never fall silent (R108) -/

/-- Before a sink that always answers a flush is answered. -/
theorem flushAndRespond_answers {s : State} (hk : s.sink.after ≠ .silent) : ∃ t, flushAndRespond s = .next t := by
  rcases flushAndRespond_cases s with ⟨-, e⟩ | ⟨-, hn, -⟩ | ⟨_, -, -, e⟩ | ⟨_, _, _, -, -, -, e⟩
  · exact ⟨_, e⟩
  · exact absurd (Sink.answer_eq_none_iff.1 hn).2 hk
  · exact ⟨_, e⟩
  · exact ⟨_, e⟩

/-- With a free slot and a sink that always answers, PUT's own rule is answered. -/
theorem putBody_answers (v : Word) {s : State} (hc : s.enc.count.val ≤ 3) (hk : s.sink.after ≠ .silent) :
    ∃ t, putBody v s = .next t := by
  rcases putBody_cases v s with ⟨_, -, e⟩ | ⟨_, -, e⟩ | ⟨h4, -⟩
  · exact ⟨_, e⟩
  · rw [e]; exact flushAndRespond_answers hk
  · omega

/-- On a source that always answers, GET's own rule is answered. -/
theorem getBody_answers {s : State} (hd : s.dec.fault = false) (hr : s.source.after ≠ .silent) :
    ∃ t, getBody s = .next t := by
  by_cases hn : s.dec.rptr < s.dec.avail ∨ s.dec.finished = true
  · exact ⟨_, getBody_noRead hn⟩
  · obtain ⟨hb, hf⟩ := not_or.1 hn
    rcases getBody_reads_cases hb (Bool.eq_false_of_not_eq_true hf) hd with
      ⟨⟨as, m, hg, hm⟩, -⟩ | ⟨_, _, _, _, _, _, _, -, -, e, -⟩
    · exact absurd (hg.spec.1.symm.trans (Source.read_eq_none_iff.1 hm).2) hr
    · exact ⟨_, e⟩

/-- A command is answered if its own rule is, on its own unit, unfaulted. -/
theorem enter_answers {home : Option Port} {body : State → Result} {s : State}
    (hb : ∀ p, home = some p → s.faultOf p = false → ∃ t, body s = .next t) : ∃ t, enter home body s = .next t := by
  rcases enter_cases home body s with ⟨e, -⟩ | ⟨hp, hf, e⟩
  · exact ⟨_, e⟩
  · rw [e]; exact hb _ hp hf

/-- Every command to legal units is answered when both streams always answer. -/
theorem exec_answers {i : Instr} {s : State} (hi : isCommand i = true) (hs : s.Inv) (hk : s.sink.after ≠ .silent)
    (hr : s.source.after ≠ .silent) : ∃ t, exec i s = .next t := by
  cases i with
  | put v =>
    exact enter_answers fun | _, rfl, hf => putBody_answers v (hs.1.resolve_left (Bool.eq_false_iff.1 hf)) hk
  | flush | close => exact enter_answers fun _ _ _ => flushAndRespond_answers hk
  | get => exact enter_answers fun | _, rfl, hf => getBody_answers hf hr
  | reserved011 | reserved101 | reserved110 | reserved111 => exact enter_answers nofun
  | groupControlByte | response => cases hi

/-- Settles O44: a legal unit has a slot for a PUT, so only a silent stream could keep a command from its response. -/
theorem everyCommandTerminates : Obligations.EveryCommandTerminates := by
  intro w s hs hk hr
  have hi := decodeCommand_isCommand w
  obtain ⟨t, ht⟩ := exec_answers hi hs hk hr
  obtain ⟨⟨r, hres, -⟩, -, -⟩ := exec_answeredBy hi ht
  exact ⟨t, r, ht, hres⟩

/-! ### Runs of instructions -/

/-- A run that is answered begins with an instruction that is answered. -/
theorem execAll_cons_next {i : Instr} {is : List Instr} {s t : State} (h : execAll (i :: is) s = .next t) :
    ∃ m, exec i s = .next m ∧ execAll is m = .next t := by
  rw [execAll] at h
  cases hi : exec i s with
  | next m => rw [hi] at h; exact ⟨m, rfl, h⟩
  | fault | refused => rw [hi] at h; cases h

/-- What each of the instructions keeps, a run of them keeps. -/
theorem execAll_keeps {P : State → Prop} {is : List Instr} {s t : State}
    (hstep : ∀ i ∈ is, ∀ s t, P s → exec i s = .next t → P t) (hs : P s) (h : execAll is s = .next t) : P t := by
  induction is generalizing s with
  | nil => cases h; exact hs
  | cons i is ih =>
    obtain ⟨m, hm, ht⟩ := execAll_cons_next h
    exact ih (fun j hj => hstep j (List.mem_cons_of_mem _ hj)) (hstep i List.mem_cons_self s m hs hm) ht

/-- A fault of GVENC lasts to the end of a run. -/
theorem execAll_encFault {is : List Instr} {s t : State} (hf : s.enc.fault = true) (h : execAll is s = .next t) :
    t.enc.fault = true :=
  execAll_keeps (P := fun s => s.enc.fault = true)
    (fun _ _ _ _ hf h => (congrArg (fun x => x.1.fault) (exec_encSide_of_faulted hf h)).trans hf) hf h

/-! ### An encoder run ends well (R35, R66, R99, R108) -/

/-- What the sink will hold in the end: its contents, then the encoding of the pending values and of `vs`, still to be
put (R66). -/
def State.encodedWith (s : State) (vs : List Word) : List Byte :=
  s.sink.contents ++ encodeStream (s.enc.pendingValues ++ vs)

/-- With nothing pending, the sink will hold what it holds and the encoding of the values still to be put. -/
theorem State.encodedWith_of_empty {s : State} (h0 : s.enc.count = 0) (vs : List Word) :
    s.encodedWith vs = s.sink.contents ++ encodeStream vs := by
  rw [State.encodedWith, Enc.pendingValues, h0]
  rfl

/-- What the sink will hold in the end depends on GVENC and its sink only. -/
theorem State.encodedWith_of_encSide {s t : State} (h : t.encSide = s.encSide) (vs : List Word) :
    t.encodedWith vs = s.encodedWith vs := by
  obtain ⟨henc, hsink⟩ := Prod.ext_iff.1 h
  rw [State.encodedWith, State.encodedWith, show t.enc = s.enc from henc, show t.sink = s.sink from hsink]

/-- An answered flush that leaves no fault has written all that was pending. -/
theorem flushAndRespond_unfaulted {s t : State} (h : flushAndRespond s = .next t) (hf : t.enc.fault = false) :
    t.sink.contents = s.encodedWith [] ∧ t.enc.count = 0 := by
  by_cases h0 : s.enc.count = 0
  · rw [flushAndRespond_nothing h0] at h
    cases h
    exact ⟨by rw [State.encodedWith_of_empty h0]; exact (List.append_nil _).symm, h0⟩
  · rw [State.encodedWith, List.append_nil, ← Enc.flushBytes_eq_encodeStream h0]
    rcases flushAndRespond_cases s with ⟨hc, -⟩ | ⟨-, -, e⟩ | ⟨k, -, ha, -⟩ | ⟨_, _, _, -, -, hd, e⟩
    · exact absurd hc h0
    · cases e.symm.trans h
    · cases (flushAndRespond_ok h0 ha).symm.trans h
      exact ⟨rfl, rfl⟩
    · cases e.symm.trans h
      cases hd.symm.trans hf

/-- A flush that leaves no fault keeps what the sink will hold in the end, unless it cuts a group that values still to be put
would go on with (R99). -/
theorem flushAndRespond_encodedWith {s t : State} {vs : List Word} (h : flushAndRespond s = .next t)
    (hf : t.enc.fault = false) (hcut : 4 ∣ s.enc.count.val ∨ vs = []) : t.encodedWith vs = s.encodedWith vs := by
  obtain ⟨hsink, h0⟩ := flushAndRespond_unfaulted h hf
  rw [State.encodedWith_of_empty h0, hsink, State.encodedWith, State.encodedWith, List.append_nil, List.append_assoc]
  rcases hcut with hwhole | rfl
  · rw [encodeStream_append vs (by rwa [s.enc.pendingValues_length])]
  · rw [encodeStream, List.append_nil, List.append_nil]

/-- Appending moves a value from those still to be put to the pending ones. -/
theorem State.encodedWith_appended (s : State) (v : Word) (h : s.enc.count.val < 4) (vs : List Word) :
    (s.withEnc (s.enc.appended v h)).encodedWith vs = s.encodedWith (v :: vs) := by
  rw [State.encodedWith, State.encodedWith, List.append_cons, ← s.enc.pendingValues_appended v h]
  rfl

/-- A PUT that leaves no fault writes its value or leaves it pending: the flush it triggers cuts nothing. -/
theorem putBody_encodedWith {v : Word} {s t : State} (h : putBody v s = .next t) (hf : t.enc.fault = false)
    (vs : List Word) : t.encodedWith vs = s.encodedWith (v :: vs) := by
  rcases putBody_cases v s with ⟨h4, -, e⟩ | ⟨h4, h3, e⟩ | ⟨-, e⟩ <;> rw [e] at h
  · cases h
    exact s.encodedWith_appended v h4 vs
  · obtain ⟨-, hcount, -⟩ := s.enc.appended_spec v h4
    have hwhole : 4 ∣ (s.enc.appended v h4).count.val := by rw [hcount, h3]
    exact (flushAndRespond_encodedWith h hf (.inl hwhole)).trans (s.encodedWith_appended v h4 vs)
  · cases h

/-- A command that leaves no fault keeps what the sink will hold in the end, if a flush of pending values comes after all
PUTs (R99). -/
theorem exec_encodedWith {i : Instr} {s t : State} {vs : List Word} (hi : isCommand i = true) (hr : s.EncReady)
    (h : exec i s = .next t) (hf : t.enc.fault = false)
    (hlast : i = .flush ∨ i = .close → s.enc.count ≠ 0 → vs = []) :
    t.encodedWith vs = s.encodedWith ((valuePut i).toList ++ vs) := by
  have hflush (hi : i = .flush ∨ i = .close) : t.encodedWith vs = s.encodedWith vs := by
    rw [exec_flush_or_close hi hr] at h
    refine flushAndRespond_encodedWith h hf (or_iff_not_imp_left.2 fun hpart => hlast hi fun h0 => hpart ?_)
    rw [h0]
    exact dvd_zero 4
  cases i with
  | put v => exact putBody_encodedWith ((enter_ready hr.1 hr.2).symm.trans h) hf vs
  | flush => exact hflush (.inl rfl)
  | close => exact hflush (.inr rfl)
  | get | reserved011 | reserved101 | reserved110 | reserved111 =>
    exact State.encodedWith_of_encSide ((exec_encSide h).resolve_right (by simp)) vs
  | groupControlByte | response => cases hi

/-- R99 is respected in what follows the first command. -/
theorem PartialFlushIsLast.tail {i : Instr} {is : List Instr} {s m : State} (hl : PartialFlushIsLast s (i :: is))
    (h : exec i s = .next m) : PartialFlushIsLast m is := by
  intro js ks j n hsplit hj hn
  exact hl (i :: js) ks j n (by rw [hsplit]; rfl) hj (by rw [execAll, h]; exact hn)

theorem valuesPut_cons (i : Instr) (is : List Instr) : valuesPut (i :: is) = (valuePut i).toList ++ valuesPut is := by
  rw [valuesPut, List.filterMap_cons]
  cases valuePut i <;> rfl

/-- Commands with no PUT among them put no value. -/
theorem valuesPut_eq_nil {is : List Instr} (h : ∀ v, .put v ∉ is) : valuesPut is = [] := by
  refine List.filterMap_eq_nil_iff.2 fun i hi => ?_
  cases i with
  | put v => exact absurd hi (h v)
  | flush | close | get | reserved011 | reserved101 | reserved110 | reserved111 | groupControlByte | response => rfl

/-- Commands that respect R99 and leave no fault have written, or left pending, all the values they put. -/
theorem execAll_encodedWith {is : List Instr} {s t : State} (hi : ∀ i ∈ is, isCommand i = true) (hr : s.EncReady)
    (hl : PartialFlushIsLast s is) (h : execAll is s = .next t) (hf : t.enc.fault = false) :
    t.encodedWith [] = s.encodedWith (valuesPut is) := by
  induction is generalizing s with
  | nil => cases h; rfl
  | cons i is ih =>
    obtain ⟨m, hm, ht⟩ := execAll_cons_next h
    obtain ⟨hic, his⟩ := List.forall_mem_cons.1 hi
    have hfm : m.enc.fault = false :=
      Bool.eq_false_of_not_eq_true fun hfm => Bool.false_ne_true (hf.symm.trans (execAll_encFault hfm ht))
    obtain ⟨-, -, hport⟩ := exec_answeredBy hic hm
    have hlast : i = .flush ∨ i = .close → s.enc.count ≠ 0 → valuesPut is = [] := fun hfl h0 =>
      valuesPut_eq_nil (hl [] is i s rfl hfl rfl h0)
    calc t.encodedWith [] = m.encodedWith (valuesPut is) := ih his ⟨hport.trans hr.1, hfm⟩ (hl.tail hm) ht
      _ = s.encodedWith (valuesPut (i :: is)) := by
        rw [valuesPut_cons, exec_encodedWith hic hr hm hfm hlast]

/-- A CLOSE that is answered OK was carried out and its write, if it made one, accepted. -/
theorem exec_close_ok {s t : State} {n : Word} (h : exec .close s = .next t)
    (hres : t.responses = s.responses ++ [⟨.enc, .ok, n⟩]) :
    s.EncReady ∧ t.enc.fault = false ∧ flushAndRespond s = .next t := by
  rcases enterEnc_next h with ⟨-, rfl⟩ | ⟨hr, hb⟩
  · simp at hres
  · refine ⟨hr, ?_, hb⟩
    rcases flushAndRespond_cases s with ⟨-, e⟩ | ⟨-, -, e⟩ | ⟨_, -, -, e⟩ | ⟨_, _, _, -, -, -, e⟩ <;>
      cases e.symm.trans hb
    · exact hr.2
    · exact hr.2
    · simp at hres

/-- Settles O52: the last CLOSE leaves nothing pending, so what the sink was to hold in the end it holds. -/
theorem encoderRunsEndWell : Obligations.EncoderRunsEndWell := by
  rintro s t is ⟨⟨hr, h0⟩, hi, m, n, hm, ht, hres⟩
  obtain ⟨hrm, hft, hb⟩ := exec_close_ok ht hres
  obtain ⟨hsink, h0t⟩ := flushAndRespond_unfaulted hb hft
  refine ⟨h0t, hft, fun hl => ?_⟩
  rw [hsink, execAll_encodedWith hi hr hl hm hrm.2, State.encodedWith_of_empty h0]

/-! ### A decoder run ends well (R79, R108) -/

/-- Since its source was `r` an unfaulted decoder has read bytes, and one end-of-data after them if it holds the mark. -/
def State.HasRead (r : Source) (s : State) : Prop :=
  s.dec.fault = false → ∃ bs : List Byte, r.Gives (bs.map .byte ++ if s.dec.finished then [.eod] else []) s.source

/-- An answered group read that leaves no fault has read bytes, and one end-of-data after them if it set the mark. -/
theorem getBody_reads_hasRead {s t : State} (hb : ¬ s.dec.rptr < s.dec.avail) (hf : s.dec.finished = false)
    (hd : s.dec.fault = false) (h : getBody s = .next t) : t.HasRead s.source := by
  rcases getBody_reads_cases hb hf hd with ⟨-, e⟩ | ⟨bs, a, r, d, _, _, _, -, hg, e, hcase⟩ <;> cases e.symm.trans h
  intro hfault
  show ∃ cs : List Byte, s.source.Gives (cs.map .byte ++ if d.finished then [.eod] else []) r
  rcases hcase with ⟨-, -, herr⟩ | ⟨rfl, -, rfl⟩ |
    ⟨-, -, ⟨⟨b, rfl⟩, -, -, -, hfin⟩ | ⟨rfl, -, -, -, hfin⟩ | ⟨rfl, -, -, -, hfin⟩⟩
  · cases herr.symm.trans hfault
  · exact ⟨bs, hg⟩
  · exact ⟨bs ++ [b], by simpa [hfin] using hg⟩
  · exact ⟨bs, by rwa [hfin]⟩
  · exact ⟨bs, by rwa [hfin]⟩

/-- A GET goes on reading where the source stands. -/
theorem exec_get_hasRead {r : Source} {s t : State} (hs : s.HasRead r) (h : exec .get s = .next t) : t.HasRead r := by
  rcases exec_get_next h with ⟨-, rfl⟩ | ⟨hready, hb, hf, he⟩ | ⟨hn, rfl⟩
  · exact hs
  · intro hfault
    obtain ⟨bs, hg⟩ := hs hready.2
    obtain ⟨cs, hg'⟩ := getBody_reads_hasRead hb hf hready.2 he hfault
    rw [hf, if_neg Bool.false_ne_true, List.append_nil] at hg
    refine ⟨bs ++ cs, ?_⟩
    rw [List.map_append, List.append_assoc]
    exact Source.gives_append.2 ⟨_, hg, hg'⟩
  · obtain ⟨-, -, hfin⟩ := State.deliver_dec hn
    rwa [State.HasRead, s.deliver_fault, s.deliver_source, hfin]

/-- Delivering that is answered EOD leaves an unfaulted decoder exhausted. -/
theorem State.deliver_eod {s : State} {p : Word} (hd : s.dec.fault = false) (hle : s.dec.rptr ≤ s.dec.avail)
    (hres : s.deliver.responses = s.responses ++ [⟨.dec, .eod, p⟩]) : s.deliver.dec.Exhausted := by
  by_cases hlt : s.dec.rptr < s.dec.avail
  · obtain ⟨k, hk⟩ := Dec.rptr_castSucc hlt
    rw [State.deliver_ok hlt hk] at hres
    simp at hres
  · rw [State.deliver_none hlt]
    exact ⟨hd, le_antisymm hle (not_lt.1 hlt), rfl⟩

/-- A GET answered EOD leaves a legal decoder exhausted. -/
theorem exec_get_eod {s t : State} {p : Word} (hi : s.dec.Inv) (h : exec .get s = .next t)
    (hres : t.responses = s.responses ++ [⟨.dec, .eod, p⟩]) : t.dec.Exhausted := by
  rcases enter_own_next (p := .dec) (body := getBody) h with rfl | ⟨hd, hb⟩
  · simp at hres
  obtain ⟨hle, -⟩ := hi.resolve_left (Bool.eq_false_iff.1 hd)
  by_cases hn : s.dec.rptr < s.dec.avail ∨ s.dec.finished = true
  · cases (getBody_noRead hn).symm.trans hb
    exact State.deliver_eod hd hle hres
  · obtain ⟨hlt, hf⟩ := not_or.1 hn
    rcases getBody_reads_cases hlt (Bool.eq_false_of_not_eq_true hf) hd with
      ⟨-, e⟩ | ⟨_, _, _, _, _, st, _, -, -, e, hcase⟩ <;> cases e.symm.trans hb
    obtain ⟨rfl, -⟩ : st = .eod ∧ _ := by simpa using hres
    rcases hcase with ⟨-, hst, -⟩ | ⟨-, -, rfl⟩ | ⟨-, hd', ⟨-, hst, -⟩ | ⟨-, hst, -⟩ | ⟨-, -, hptr, havail, hfin⟩⟩
    · cases hst
    · exact ⟨hd, le_antisymm hle (not_lt.1 hlt), rfl⟩
    · cases hst
    · cases hst
    · exact ⟨hd', hptr.trans havail.symm, hfin⟩

/-- A run of commands adds to the responses and takes none back. -/
theorem execAll_responses {is : List Instr} {s t : State} (hi : ∀ i ∈ is, isCommand i = true)
    (h : execAll is s = .next t) : s.responses <+: t.responses := by
  refine execAll_keeps (P := fun m => s.responses <+: m.responses) (fun i hmem m n hm hn => ?_) List.prefix_rfl h
  obtain ⟨⟨r, hr, -⟩, -, -⟩ := exec_answeredBy (hi i hmem) hn
  exact hr ▸ hm.trans (List.prefix_append ..)

/-- GETs of a decoder that holds `vs`, up to the first EOD, are answered OK with `vs`. -/
theorem State.Holds.responses_until_eod {s m t : State} {vs : List Word} {rs : List Response} {p : Word} (hs : s.Holds vs)
    (hrs : ∀ r ∈ rs, r.status ≠ .eod) (hm : execAll (List.replicate rs.length .get) s = .next m)
    (hres : m.responses = s.responses ++ rs) (ht : exec .get m = .next t)
    (hend : t.responses = m.responses ++ [⟨.dec, .eod, p⟩]) : rs = vs.map fun v => ⟨.dec, .ok, v⟩ := by
  induction rs generalizing s vs with
  | nil =>
    cases hm
    obtain ⟨u, hu, hans⟩ := hs.get
    cases hu.symm.trans ht
    cases hans with
    | value hr _ => simp [hend] at hr
    | ended => rfl
  | cons r rs ih =>
    obtain ⟨hne, hrest⟩ := List.forall_mem_cons.1 hrs
    obtain ⟨n, hn, hnm⟩ := execAll_cons_next hm
    obtain ⟨u, hu, hans⟩ := hs.get
    cases hu.symm.trans hn
    have hgets : ∀ i ∈ List.replicate rs.length Instr.get, isCommand i = true := by simp [isCommand]
    have hfirst {q : Response} (hq : n.responses = s.responses ++ [q]) : q = r := by
      have hpre := execAll_responses hgets hnm
      rw [hq, hres, List.prefix_append_right_inj, List.cons_prefix_cons] at hpre
      exact hpre.1
    cases hans with
    | value hr hheld =>
      obtain rfl := hfirst hr
      rw [List.map_cons, ← ih hheld hrest hnm (by rw [hres, hr, List.append_cons])]
    | ended q hr =>
      obtain rfl := hfirst hr
      exact absurd rfl hne

/-- Settles O53: the mark says that the source has given bytes and then end-of-data, and the decoder held the decoding of
these bytes from the start. -/
theorem decoderRunsEndWell : Obligations.DecoderRunsEndWell := by
  rintro s t rs ⟨⟨⟨hp, hd⟩, havail, hptr, hfin⟩, hrs, m, p, hm, hres, ht, hend⟩
  have hneed : s.dec.NeedGroup := ⟨hd, hptr.trans havail.symm, hfin⟩
  have hinv : m.dec.Inv := execAll_keeps (P := fun s => s.dec.Inv) (fun _ _ _ _ hi h => exec_decInv hi h)
    (.inr ⟨(hptr.trans havail.symm).le, fun _ => .inl havail⟩) hm
  have hread : m.HasRead s.source := execAll_keeps
    (fun i hi _ _ hs h => exec_get_hasRead hs (by rwa [List.eq_of_mem_replicate hi] at h))
    (fun _ => ⟨[], by rw [hfin]; rfl⟩) hm
  have ⟨hdt, hptrt, hfint⟩ := exec_get_eod hinv ht hend
  obtain ⟨bs, hg⟩ := exec_get_hasRead hread ht hdt
  rw [hfint, if_pos rfl] at hg
  exact ⟨⟨hdt, hptrt, hfint⟩, bs, hg,
    (State.Holds.of_needGroup hp hneed hg).responses_until_eod hrs hm hres ht hend⟩

end Sys2Proof.Machine
